-- ==== Sys2Proof/Config.lean ====
section
/-! DEFINITION. The fixed parameters of 00_scope.md R4 under the spec's own names, and the two open parameters of
R5 and R6, which State carries so that every claim ranges over them. -/

namespace Sys2Proof.Config

/-- `WORD_BITS`: the width of an output word (R4). -/
@[simp] abbrev wordBits : Nat := 32

/-- `MAXLEN`: the greatest code length in bits (R4). -/
@[simp] abbrev maxLen : Nat := 64

/-- `CODE_BITS`: the width of the stored code field (R4). -/
@[simp] abbrev codeBits : Nat := 64

/-- `UNIT_WIDTHS`: the legal unit widths in bits (R4). -/
@[simp] abbrev unitWidths : List Nat := [4, 8]

/-- `SYM_BITS`: the width of a unit value operand (R4). -/
@[simp] abbrev symBits : Nat := 8

/-- `CB_ENTRIES`: the number of codebase entries (R4). -/
@[simp] abbrev cbEntries : Nat := 256

/-- `CMD_BITS`: the width of a command (R4). -/
@[simp] abbrev cmdBits : Nat := 96

/-- `DATA_BITS`: the width of a response's data (R4). -/
@[simp] abbrev dataBits : Nat := 32

/-- The greatest `OUT_DEPTH` an implementation may have: 2^32 - 1 (R5). -/
@[simp] abbrev maxOutDepth : Nat := 4294967295

/-- The two values of `OUT_BYTE_ORDER` (R6). -/
inductive ByteOrder where
  | little
  | big
deriving DecidableEq, Repr

/-- The open parameters of one block. No command and no reset changes them (R23). -/
structure Params where
  /-- `OUT_DEPTH`: how many words the word buffer can hold (R5). -/
  outDepth : Nat
  /-- `OUT_BYTE_ORDER`: read by no rule of the block, only by a wrapper's byte image (R6, R35). -/
  byteOrder : ByteOrder
deriving DecidableEq, Repr

/-- The bounds R5 puts on `OUT_DEPTH`. -/
abbrev Params.wf (p : Params) : Prop := 1 ≤ p.outDepth ∧ p.outDepth ≤ maxOutDepth

/-- The parameters `State.reset` stands for. DESIGN CHOICE (logs 1 and 2), unsafe: the spec leaves both open; the
largest depth departs least from GBAT's unbounded buffer, and `little` is the value R35 recommends. No statement
rests on either. -/
def Params.atReset : Params := { outDepth := maxOutDepth, byteOrder := .little }

end Sys2Proof.Config
end

