-- ==== Sys2Proof/Word.lean ====
section
/-! DEFINITION. The bit vectors the spec names. All values are unsigned (00_scope.md section 4). -/

namespace Sys2Proof

/-- An output word: `WORD_BITS` bits (00_scope.md R4). -/
abbrev Word := BitVec Config.wordBits

/-- The data of a response: `DATA_BITS` bits (00_scope.md R4, 30_encoding.md R51). -/
abbrev Data := BitVec Config.dataBits

/-- A unit value, an input byte, operand `A` or operand `L`: `SYM_BITS` bits (00_scope.md R4, 30_encoding.md R50). -/
abbrev Byte := BitVec Config.symBits

/-- A stored code, and the data word of a command: `CODE_BITS` bits (00_scope.md R4, 30_encoding.md R50). -/
abbrev Code := BitVec Config.codeBits

/-- A command: `CMD_BITS` bits (00_scope.md R4, 30_encoding.md R50). -/
abbrev Cmd := BitVec Config.cmdBits

end Sys2Proof
end

