-- ==== Sys2Proof/Syntax.lean ====
section
/-! DEFINITION. The ten commands of HBP, one constructor per row of spec/opcode_table.json (30_encoding.md R53). -/

namespace Sys2Proof

/-- A command with the operands it carries (30_encoding.md R52, R56). An operand has the width of its field, so a
command that does not fit its encoding cannot be written. -/
inductive Instr where
  /-- `CLR`: clear the block (40_setup.md R61). -/
  | clr
  /-- `CFG A`: set the unit width (40_setup.md R62). -/
  | cfg (a : Byte)
  /-- `LDCODE A, L, D`: load one codebase entry (40_setup.md R63). -/
  | ldcode (a l : Byte) (d : Code)
  /-- `PUTU A`: pack one unit (41_packing.md R73). -/
  | putu (a : Byte)
  /-- `PUTB A`: pack one input byte (41_packing.md R74). -/
  | putb (a : Byte)
  /-- `END`: close the stream (41_packing.md R75). -/
  | endStream
  /-- `RDST`: read the status word (42_readback.md R85). -/
  | rdst
  /-- `RDERR`: read the error code (42_readback.md R86). -/
  | rderr
  /-- `RDCNT`: read the word count (42_readback.md R87). -/
  | rdcnt
  /-- `RDW i`: read output word i (42_readback.md R88). -/
  | rdw (i : Word)
deriving DecidableEq, Repr

end Sys2Proof
end

