-- ==== Sys2Proof/WellFormed.lean ====
section
/-! DEFINITION. Which operand values are legal. Every term of `Instr` fits its encoding (its fields have the widths of
the encoding's fields), so what is left to check is 30_encoding.md R55: an operand value that decodes but is not legal
is not an undefined encoding, it is taken by the command's own rule, which faults. The machine runs such commands;
nothing of the decoder or of `exec` assumes this check (log 16). -/

namespace Sys2Proof

/-- `CFG` accepts the numbers of `UNIT_WIDTHS`, 4 and 8 (40_setup.md R62). -/
abbrev legalWidth (a : Byte) : Bool := decide (a.toNat ∈ Config.unitWidths)

/-- `LDCODE` accepts lengths 1 to 64 (40_setup.md R63). -/
abbrev legalLength (l : Byte) : Bool := decide (1 ≤ l.toNat) && decide (l.toNat ≤ Config.maxLen)

/-- The operands are legal: no fault can come from their values alone (30_encoding.md R55). -/
def Instr.wellFormed : Instr → Bool
  | .clr => true
  | .cfg a => legalWidth a
  | .ldcode _ l _ => legalLength l
  | .putu _ => true
  | .putb _ => true
  | .endStream => true
  | .rdst => true
  | .rderr => true
  | .rdcnt => true
  | .rdw _ => true

end Sys2Proof
end

