-- ==== Sys2Proof/Decode.lean ====
section
/-! DEFINITION. The decoder of 30_encoding.md R56, total on the 2^96 commands and rejecting by name; after it the
encoder and the opcode map of R53 as rows. -/

namespace Sys2Proof

/-- Why a command is an undefined encoding, the three cases of 30_encoding.md R54. -/
inductive Undefined where
  /-- `RSV` is not zero, with any `OP`. -/
  | reservedNotZero
  /-- `OP` is one of 0x0, 0x7, 0xC, 0xD, 0xE, 0xF. -/
  | unusedOpcode
  /-- A field the command's row marks "0" is not zero. -/
  | fieldNotZero
deriving DecidableEq, Repr

/-- `OP`, bits 95:92 (30_encoding.md R50). -/
def opField (c : Cmd) : BitVec 4 := c.extractLsb' 92 4

/-- `RSV`, bits 91:80. -/
def rsvField (c : Cmd) : BitVec 12 := c.extractLsb' 80 12

/-- `A`, bits 79:72. -/
def aField (c : Cmd) : Byte := c.extractLsb' 72 8

/-- `L`, bits 71:64. -/
def lField (c : Cmd) : Byte := c.extractLsb' 64 8

/-- `D`, bits 63:0. -/
def dField (c : Cmd) : Code := c.extractLsb' 0 64

/-- `D[63:32]`, which `RDW` requires to be zero. -/
def dHighField (c : Cmd) : BitVec 32 := c.extractLsb' 32 32

/-- `D[31:0]`, the word index of `RDW` (30_encoding.md R52 (g)). -/
def idxField (c : Cmd) : Word := c.extractLsb' 0 32

/-- `i` where the fields the row marks "0" are zero, an undefined encoding where one is not. -/
def requireZero (zero : Bool) (i : Instr) : Except Undefined Instr :=
  if zero then .ok i else .error .fieldNotZero

/-- The decoder (30_encoding.md R56). It reads nothing but the command. -/
def decode (c : Cmd) : Except Undefined Instr :=
  if rsvField c != 0 then .error .reservedNotZero
  else if opField c = 0x1 then requireZero (aField c == 0 && lField c == 0 && dField c == 0) .clr
  else if opField c = 0x2 then requireZero (lField c == 0 && dField c == 0) (.cfg (aField c))
  else if opField c = 0x3 then .ok (.ldcode (aField c) (lField c) (dField c))
  else if opField c = 0x4 then requireZero (lField c == 0 && dField c == 0) (.putu (aField c))
  else if opField c = 0x5 then requireZero (lField c == 0 && dField c == 0) (.putb (aField c))
  else if opField c = 0x6 then requireZero (aField c == 0 && lField c == 0 && dField c == 0) .endStream
  else if opField c = 0x8 then requireZero (aField c == 0 && lField c == 0 && dField c == 0) .rdst
  else if opField c = 0x9 then requireZero (aField c == 0 && lField c == 0 && dField c == 0) .rderr
  else if opField c = 0xA then requireZero (aField c == 0 && lField c == 0 && dField c == 0) .rdcnt
  else if opField c = 0xB then
    requireZero (aField c == 0 && lField c == 0 && dHighField c == 0) (.rdw (idxField c))
  else .error .unusedOpcode

/-- A command from its fields, `RSV` zero: `OP`, `RSV`, `A`, `L`, `D` from the top (30_encoding.md R50). -/
def packFields (op : BitVec 4) (a l : Byte) (d : Code) : Cmd := op ++ (0 : BitVec 12) ++ a ++ l ++ d

/-- The encoder: zero in every field the command does not carry (30_encoding.md R53, R56). -/
def encode : Instr → Cmd
  | .clr => packFields 0x1 0 0 0
  | .cfg a => packFields 0x2 a 0 0
  | .ldcode a l d => packFields 0x3 a l d
  | .putu a => packFields 0x4 a 0 0
  | .putb a => packFields 0x5 a 0 0
  | .endStream => packFields 0x6 0 0 0
  | .rdst => packFields 0x8 0 0 0
  | .rderr => packFields 0x9 0 0 0
  | .rdcnt => packFields 0xA 0 0 0
  | .rdw i => packFields 0xB 0 0 ((0 : BitVec 32) ++ i)

/-- The command that a row of spec/opcode_table.json numbers `w`: the table gives match and mask as one 96-bit number
whose bit 0 is bit 0 of `CMD` (30_encoding.md, head). Bits above `nbits` are zero. -/
def tableCmd (nbits w : Nat) : Cmd := BitVec.ofNat Config.cmdBits (w % 2 ^ nbits)

/-- The instruction the decoder reads from a table word, none where it refuses. -/
def decodeTableWord (nbits w : Nat) : Option Instr :=
  match decode (tableCmd nbits w) with
  | .ok i => some i
  | .error _ => none

/-- One row of the opcode map: a command matches when `CMD & mask = pattern` (30_encoding.md R53). -/
structure OpcodeRow where
  pattern : Cmd
  mask : Cmd
deriving DecidableEq, Repr

/-- The row of each command, match and mask as R53 prints them. -/
def Instr.row : Instr → OpcodeRow
  | .clr => { pattern := 0x100000000000000000000000, mask := 0xFFFFFFFFFFFFFFFFFFFFFFFF }
  | .cfg _ => { pattern := 0x200000000000000000000000, mask := 0xFFFF00FFFFFFFFFFFFFFFFFF }
  | .ldcode _ _ _ => { pattern := 0x300000000000000000000000, mask := 0xFFFF00000000000000000000 }
  | .putu _ => { pattern := 0x400000000000000000000000, mask := 0xFFFF00FFFFFFFFFFFFFFFFFF }
  | .putb _ => { pattern := 0x500000000000000000000000, mask := 0xFFFF00FFFFFFFFFFFFFFFFFF }
  | .endStream => { pattern := 0x600000000000000000000000, mask := 0xFFFFFFFFFFFFFFFFFFFFFFFF }
  | .rdst => { pattern := 0x800000000000000000000000, mask := 0xFFFFFFFFFFFFFFFFFFFFFFFF }
  | .rderr => { pattern := 0x900000000000000000000000, mask := 0xFFFFFFFFFFFFFFFFFFFFFFFF }
  | .rdcnt => { pattern := 0xA00000000000000000000000, mask := 0xFFFFFFFFFFFFFFFFFFFFFFFF }
  | .rdw _ => { pattern := 0xB00000000000000000000000, mask := 0xFFFFFFFFFFFFFFFF00000000 }

/-- The command matches the row (30_encoding.md R53). -/
abbrev OpcodeRow.matches (r : OpcodeRow) (c : Cmd) : Prop := c &&& r.mask = r.pattern

end Sys2Proof
end

