-- ==== Sys2Proof/Machine/State.lean ====
section
/-! DEFINITION. The state: the eight elements of 10_state.md R10 as `Block`, and beside them what the spec calls the
inputs and outputs of a step (R23), which the host's form of a step keeps in State. -/

namespace Sys2Proof.Machine

/-- A loaded codebase entry: GBAT's CodeEntry with the symbol value as its index (10_state.md R11). -/
structure CodeEntry where
  /-- The code length in bits. -/
  len : BitVec 7
  /-- The code, right-aligned. -/
  code : Code
deriving DecidableEq, Repr

/-- `CB`: `CB_ENTRIES` entries indexed by unit value, `none` where `valid` = 0 (10_state.md R11; log 8). -/
abbrev Codebase := Vector (Option CodeEntry) Config.cbEntries

/-- The sequencing state (10_state.md R16). -/
inductive Phase where
  /-- After reset or `CLR`: width and codebase may be set. -/
  | load
  /-- A unit has been packed: the stream is open. -/
  | pack
  /-- `END` has completed: `OUT` is final and readable. -/
  | done
  /-- A command faulted: only `CLR` or reset leaves. -/
  | fault
deriving DecidableEq, Repr

/-- The names of the errors (60_exceptions.md R91). The block raises five of them. -/
inductive ErrorCode where
  | inputTooShort
  | inputTooUniform
  | dataNotWordAlignable
  | subrootMissingDescendant
  | freqTreeMissingNodes
  | unexpectedNodeCount
  | badTreeGiven
  | maxCodeLengthReached
  | unsupportedFeature
  | gbaTableEntryOfsOverflow
  | codebaseMissingEntry
  | outputOverflow
deriving DecidableEq, Repr

/-- The architectural state: exactly the eight elements of 10_state.md R10. -/
structure Block where
  /-- `CB`, the codebase store (R11). -/
  cb : Codebase
  /-- `W`, the unit width, the number 4 or 8 (R12). -/
  w : BitVec 4
  /-- `ACC`, the word under construction (R13). -/
  acc : Word
  /-- `FILL`, how many bits of `ACC` are filled (R14). -/
  fill : BitVec 6
  /-- `OUT`, the finished words, oldest first; `WCOUNT` is its length (R15; log 9). -/
  out : List Word
  /-- `PHASE` (R16). -/
  phase : Phase
  /-- `ERR`, the sticky error code (R17). -/
  err : BitVec 8
  /-- `DUP`, the sticky duplicate-load flag (R18). -/
  dup : Bool
deriving DecidableEq, Repr

/-- `WCOUNT`, the length of `OUT` and no element of its own (10_state.md R10, R15). -/
abbrev Block.wcount (b : Block) : Nat := b.out.length

/-- The reset state of the block (10_state.md R24). -/
def Block.reset : Block :=
  { cb := Vector.replicate Config.cbEntries none
    w := 8
    acc := 0
    fill := 0
    out := []
    phase := .load
    err := 0
    dup := false }

/-- The answer to a command: `ok` and `DATA_BITS` bits of data (30_encoding.md R51). -/
structure Response where
  ok : Bool
  data : Data
deriving DecidableEq, Repr

/-- The answer of a refusal and of a fault (60_exceptions.md R90). -/
abbrev Response.no : Response := { ok := false, data := 0 }

/-- The answer of a performed command (30_encoding.md R51). -/
abbrev Response.yes (d : Data) : Response := { ok := true, data := d }

/-- What the outside world does to the block: it presents a command (20_memory.md R40) or asserts and releases `rst`
(70_reset_and_hazards.md R100; log 6). -/
inductive Input where
  | command (c : Cmd)
  | rst
deriving DecidableEq, Repr

/-- The machine: the block, its parameters, the inputs not yet taken, and the response port. -/
structure State where
  /-- The eight architectural elements. -/
  blk : Block
  /-- `OUT_DEPTH` and `OUT_BYTE_ORDER`, changed by nothing (00_scope.md R5, R6; logs 1 and 2). -/
  params : Config.Params
  /-- What the host has presented and the block has not taken, oldest first (20_memory.md R40; log 3). -/
  inputs : List Input
  /-- The response to the last command taken, none after a reset (30_encoding.md R51, 10_state.md R22; log 4). -/
  resp : Option Response
deriving DecidableEq, Repr

/-- Why the machine stops with a fault. It has no constructor: no state of the block is stuck
(93_implementation_defined.md, part 1), and a fault of the spec is a next state (60_exceptions.md R92; log 5). -/
inductive Fault where
deriving DecidableEq, Repr

/-- Why there is no next state. -/
inductive Refusal where
  /-- Raised by `exec` for an instruction that has no meaning yet; no arm raises it now. Safe. -/
  | notModelled (mnemonic : String)
  /-- Raised by `step` where the host has presented nothing: "no step without a command"
  (93_implementation_defined.md U16; log 7). No command is refused by it. Safe. -/
  | noCommand
deriving DecidableEq, Repr

/-- A machine with given parameters right after hardware reset, with nothing presented (10_state.md R24). -/
def State.resetWith (p : Config.Params) : State :=
  { blk := Block.reset, params := p, inputs := [], resp := none }

/-- The machine right after reset. Every element of the block is as 10_state.md R24 says; the parameters are the
named choice `Config.Params.atReset` (logs 1 and 2). -/
def State.reset : State := State.resetWith Config.Params.atReset

end Sys2Proof.Machine
end

