-- ==== Sys2Proof/Machine/Flags.lean ====
section
/-! DEFINITION. Everything the block shows of its state: the codes of phase and error, the two output signals, the
status word. -/

namespace Sys2Proof.Machine

/-- The 2-bit value of a phase (10_state.md R16). -/
def Phase.code : Phase → BitVec 2
  | .load => 0
  | .pack => 1
  | .done => 2
  | .fault => 3

/-- The 8-bit number of an error name (60_exceptions.md R91). -/
def ErrorCode.code : ErrorCode → BitVec 8
  | .inputTooShort => 1
  | .inputTooUniform => 2
  | .dataNotWordAlignable => 3
  | .subrootMissingDescendant => 4
  | .freqTreeMissingNodes => 5
  | .unexpectedNodeCount => 6
  | .badTreeGiven => 7
  | .maxCodeLengthReached => 8
  | .unsupportedFeature => 9
  | .gbaTableEntryOfsOverflow => 10
  | .codebaseMissingEntry => 11
  | .outputOverflow => 12

/-- The output `done_o` (60_exceptions.md R96). -/
def Block.doneO (b : Block) : Bool := b.phase == .done

/-- The output `fault_o` (60_exceptions.md R96). -/
def Block.faultO (b : Block) : Bool := b.phase == .fault

/-- `WCOUNT` as a 32-bit number (41_packing.md R75, R80). -/
def Block.countWord (b : Block) : Data := BitVec.ofNat Config.dataBits b.wcount

/-- `ERR` zero-extended (42_readback.md R86). -/
def Block.errWord (b : Block) : Data := b.err.setWidth Config.dataBits

/-- The status word: `FILL`, `W`, a zero bit, `DUP`, `PHASE`, zero-extended (42_readback.md R85). -/
def Block.statusWord (b : Block) : Data :=
  (b.fill ++ b.w ++ 0#1 ++ BitVec.ofBool b.dup ++ b.phase.code).setWidth Config.dataBits

/-- The stream position `POS` (10_state.md R20). -/
def Block.pos (b : Block) : Nat := Config.wordBits * b.wcount + b.fill.toNat

end Sys2Proof.Machine
end

