-- ==== Sys2Proof/Machine/Operands.lean ====
section
/-! DEFINITION. How a command's operands are read (30_encoding.md R52). -/

namespace Sys2Proof.Machine

/-- `ones(n)`: n one-bits, for n up to 64 (00_scope.md section 4). -/
def ones (n : Nat) : Code := BitVec.ofNat Config.codeBits (2 ^ n - 1)

/-- The unit of `PUTU`: `A & ones(W)` (30_encoding.md R52 (b), 41_packing.md R73). -/
def unitOf (w : BitVec 4) (a : Byte) : Byte := a &&& (ones w.toNat).setWidth Config.symBits

/-- The low nibble of an input byte as a unit (20_memory.md R33, 41_packing.md R74). -/
def lowNibble (a : Byte) : Byte := (a.extractLsb' 0 4).setWidth Config.symBits

/-- The high nibble of an input byte as a unit (20_memory.md R33, 41_packing.md R74). -/
def highNibble (a : Byte) : Byte := (a.extractLsb' 4 4).setWidth Config.symBits

/-- The width `CFG` stores: `A[3:0]` (40_setup.md R62). -/
def widthOperand (a : Byte) : BitVec 4 := a.extractLsb' 0 4

/-- The entry `LDCODE` stores: `L[6:0]` and `D & ones(L)` (30_encoding.md R52 (f), 40_setup.md R63). -/
def entryOperand (l : Byte) (d : Code) : CodeEntry :=
  { len := l.extractLsb' 0 7, code := d &&& ones l.toNat }

/-- Read of a codebase entry: `CB[u]` (20_memory.md R45). -/
def Codebase.lookup (cb : Codebase) (u : Byte) : Option CodeEntry := cb[u.toNat]'u.isLt

/-- Write of a whole codebase entry: `CB[u] <- e` (20_memory.md R38, R45). -/
def Codebase.store (cb : Codebase) (u : Byte) (e : CodeEntry) : Codebase := cb.set u.toNat (some e) u.isLt

/-- Read of an output word: `OUT[i]`, none where i ≥ `WCOUNT` (20_memory.md R45, 42_readback.md R88). -/
def Block.wordAt (b : Block) (i : Word) : Option Word := b.out[i.toNat]?

end Sys2Proof.Machine
end

