-- ==== Sys2Proof/Machine/Ops.lean ====
section
/-! DEFINITION. The shared operations: the packing primitives, the three ways a command ends, fault entry and the
return from it, the frame every command runs in, and taking an input. -/

namespace Sys2Proof.Machine

/-- `PUSH(w)`: finalize one word (41_packing.md R71). -/
def push (depth : Nat) (w : Word) (b : Block) : Except ErrorCode Block :=
  if b.wcount = depth then .error .outputOverflow else .ok { b with out := b.out ++ [w] }

/-- An empty word under construction: `ACC <- 0; FILL <- 0`. -/
def Block.clearAcc (b : Block) : Block := { b with acc := 0, fill := 0 }

/-- `PUSH(w); ACC <- 0; FILL <- 0`, the sequence of 41_packing.md R72 and R75. -/
def pushAndClear (depth : Nat) (w : Word) (b : Block) : Except ErrorCode Block :=
  match push depth w b with
  | .error f => .error f
  | .ok b' => .ok b'.clearAcc

/-- The loop of `APPEND` (41_packing.md R72): `code[rem-1:0]` is still to be appended. The fuel bounds the passes
(log 10); `append` gives enough for it never to run out. -/
def appendLoop (depth : Nat) (code : Code) : (fuel rem : Nat) → Block → Except ErrorCode Block
  | 0, _, b => .ok b
  | fuel + 1, rem, b =>
    let space := Config.wordBits - b.fill.toNat
    if rem = 0 then .ok b
    else if space < rem then
      let chunk := (code >>> (rem - space)) &&& ones space
      match pushAndClear depth (b.acc ||| chunk.setWidth Config.wordBits) b with
      | .error f => .error f
      | .ok b' => appendLoop depth code fuel (rem - space) b'
    else
      let chunk := code &&& ones rem
      let acc := b.acc ||| (chunk.setWidth Config.wordBits <<< (space - rem))
      let fill := b.fill + BitVec.ofNat 6 rem
      if fill.toNat = Config.wordBits then pushAndClear depth acc b else .ok { b with acc := acc, fill := fill }

/-- `APPEND(code, n)`: append the entry's `len` bits, most significant first (41_packing.md R72). -/
def append (depth : Nat) (e : CodeEntry) (b : Block) : Except ErrorCode Block :=
  appendLoop depth e.code (e.len.toNat + 1) e.len.toNat b

/-- `PACKUNIT(u)`: look up one unit and append its code (41_packing.md R70). -/
def packUnit (depth : Nat) (u : Byte) (b : Block) : Except ErrorCode Block :=
  match Codebase.lookup b.cb u with
  | none => .error .codebaseMissingEntry
  | some e => append depth e b

/-- Fault entry, the assignments of `raise F` (60_exceptions.md R92). -/
def Block.raise (f : ErrorCode) (b : Block) : Block :=
  { b with err := f.code, phase := .fault, acc := 0, fill := 0, out := [] }

/-- The return from a fault, and every other clear: each element to its reset value (60_exceptions.md R95,
40_setup.md R61). -/
def Block.clear (_ : Block) : Block := Block.reset

/-- How a command ends: the three outcomes of 60_exceptions.md R90. -/
inductive Result where
  /-- The block after it, and the data of the response. -/
  | performed (b : Block) (d : Data)
  | refused
  | raised (f : ErrorCode)

/-- The state after a command that ended so. A refusal changes no element (60_exceptions.md R93); a fault takes fault
entry, which leaves nothing of what the command had done before it (R92; log 13). All three are next states (log 5). -/
def State.finish (s : State) : Result → Host.Outcome State Fault Refusal
  | .performed b d => .next { s with blk := b, resp := some (.yes d) }
  | .refused => .next { s with resp := some .no }
  | .raised f => .next { s with blk := s.blk.raise f, resp := some .no }

/-- The frame of 40_setup.md R60 after decoding: a command that is not legal in `PHASE` is refused before any check of
its own. -/
def State.underFrame (s : State) (legal : List Phase) (r : Result) : Host.Outcome State Fault Refusal :=
  if s.blk.phase ∈ legal then s.finish r else s.finish .refused

/-- The phases of a command that is legal in every phase (10_state.md R20). -/
def everyPhase : List Phase := [.load, .pack, .done, .fault]

/-- An undefined encoding is refused in every phase (30_encoding.md R54). -/
def State.refuseUndefined (s : State) : Host.Outcome State Fault Refusal := s.finish .refused

/-- `rst` asserted and released: the reset state, and no response (70_reset_and_hazards.md R100; log 6). -/
def State.hardReset (s : State) : State := { s with blk := s.blk.clear, resp := none }

/-- The host presents a command, to be taken before anything it presented earlier and the block has not taken. -/
def State.presentNext (s : State) (c : Cmd) : State := { s with inputs := .command c :: s.inputs }

/-- The host presents a list of commands, in order, and nothing else. -/
def State.present (s : State) (cs : List Cmd) : State := { s with inputs := cs.map .command }

end Sys2Proof.Machine
end

