-- ==== Sys2Proof/Machine/Packing.lean ====
section
/-! DEFINITION. `PUTU`, `PUTB`, `END` (41_packing.md). -/

namespace Sys2Proof.Machine

/-- The end of a packing command: `PHASE <- PACK; respond(0)`, or the fault raised on the way. -/
def packed : Except ErrorCode Block → Result
  | .ok b => .performed { b with phase := .pack } 0
  | .error f => .raised f

/-- The units of an input byte in order: at `W` = 8 the byte, else the low nibble and then the high nibble
(41_packing.md R74, 20_memory.md R33). -/
def byteUnits (w : BitVec 4) (a : Byte) : List Byte := if w = 8 then [a] else [lowNibble a, highNibble a]

/-- `PACKUNIT` of each unit in order, up to the first that raises (60_exceptions.md R94 (6)). -/
def packUnits (depth : Nat) : List Byte → Block → Except ErrorCode Block
  | [], b => .ok b
  | u :: us, b =>
    match packUnit depth u b with
    | .error f => .error f
    | .ok b' => packUnits depth us b'

/-- `PUTU A` (41_packing.md R73). -/
def execPutu (a : Byte) (s : State) : Host.Outcome State Fault Refusal :=
  s.underFrame [.load, .pack] (packed (packUnit s.params.outDepth (unitOf s.blk.w a) s.blk))

/-- `PUTB A` (41_packing.md R74). -/
def execPutb (a : Byte) (s : State) : Host.Outcome State Fault Refusal :=
  s.underFrame [.load, .pack] (packed (packUnits s.params.outDepth (byteUnits s.blk.w a) s.blk))

/-- The flush of `END`: the word under construction is pushed if a bit was written into it (41_packing.md R75). -/
def flush (depth : Nat) (b : Block) : Except ErrorCode Block :=
  if 0 < b.fill.toNat then pushAndClear depth b.acc b else .ok b

/-- The end of `END`: `PHASE <- DONE; respond(WCOUNT)`, or the fault raised by the flush. -/
def closed : Except ErrorCode Block → Result
  | .ok b => .performed { b with phase := .done } b.countWord
  | .error f => .raised f

/-- `END` (41_packing.md R75). -/
def execEnd (s : State) : Host.Outcome State Fault Refusal :=
  s.underFrame [.load, .pack] (closed (flush s.params.outDepth s.blk))

end Sys2Proof.Machine
end

