-- ==== Sys2Proof/Machine/Readback.lean ====
section
/-! DEFINITION. `RDST`, `RDERR`, `RDCNT`, `RDW` (42_readback.md). None changes an element of the block
(20_memory.md R39). -/

namespace Sys2Proof.Machine

/-- `RDST` (42_readback.md R85). -/
def execRdst (s : State) : Host.Outcome State Fault Refusal :=
  s.underFrame everyPhase (.performed s.blk s.blk.statusWord)

/-- `RDERR` (42_readback.md R86). -/
def execRderr (s : State) : Host.Outcome State Fault Refusal :=
  s.underFrame everyPhase (.performed s.blk s.blk.errWord)

/-- `RDCNT` (42_readback.md R87). -/
def execRdcnt (s : State) : Host.Outcome State Fault Refusal :=
  s.underFrame everyPhase (.performed s.blk s.blk.countWord)

/-- `RDW i` (42_readback.md R88): refused where i ≥ `WCOUNT`. -/
def execRdw (i : Word) (s : State) : Host.Outcome State Fault Refusal :=
  s.underFrame [.done]
    (match s.blk.wordAt i with
     | some w => .performed s.blk w
     | none => .refused)

end Sys2Proof.Machine
end

