-- ==== Sys2Proof/Machine/Setup.lean ====
section
/-! DEFINITION. `CLR`, `CFG`, `LDCODE` (40_setup.md). -/

namespace Sys2Proof.Machine

/-- `CLR` (40_setup.md R61). -/
def execClr (s : State) : Host.Outcome State Fault Refusal :=
  s.underFrame everyPhase (.performed s.blk.clear 0)

/-- `CFG A` (40_setup.md R62). -/
def execCfg (a : Byte) (s : State) : Host.Outcome State Fault Refusal :=
  s.underFrame [.load]
    (if a.toNat ∈ Config.unitWidths then .performed { s.blk with w := widthOperand a } 0
     else .raised .unsupportedFeature)

/-- `LDCODE A, L, D` (40_setup.md R63): the length checks come before the duplicate check; the first load wins. -/
def execLdcode (a l : Byte) (d : Code) (s : State) : Host.Outcome State Fault Refusal :=
  s.underFrame [.load]
    (if l.toNat = 0 then .raised .badTreeGiven
     else if l.toNat > Config.maxLen then .raised .maxCodeLengthReached
     else if (Codebase.lookup s.blk.cb a).isSome then .performed { s.blk with dup := true } 0
     else .performed { s.blk with cb := Codebase.store s.blk.cb a (entryOperand l d) } 0)

end Sys2Proof.Machine
end

