-- ==== Sys2Proof/Machine/Dispatch.lean ====
section
/-! DEFINITION. The dispatch: one arm per constructor of `Instr`, each one direct call of its meaning. -/

namespace Sys2Proof.Machine

def exec (i : Instr) (s : State) : Host.Outcome State Fault Refusal :=
  match i with
  | .clr => Sys2Proof.Machine.execClr s
  | .cfg a => Sys2Proof.Machine.execCfg a s
  | .ldcode a l d => Sys2Proof.Machine.execLdcode a l d s
  | .putu a => Sys2Proof.Machine.execPutu a s
  | .putb a => Sys2Proof.Machine.execPutb a s
  | .endStream => Sys2Proof.Machine.execEnd s
  | .rdst => Sys2Proof.Machine.execRdst s
  | .rderr => Sys2Proof.Machine.execRderr s
  | .rdcnt => Sys2Proof.Machine.execRdcnt s
  | .rdw n => Sys2Proof.Machine.execRdw n s

end Sys2Proof.Machine
end

