-- ==== Sys2Proof/Machine/Step.lean ====
section
/-! DEFINITION. One step: the oldest input is taken and performed to completion (20_memory.md R40, 40_setup.md R60). -/

namespace Sys2Proof.Machine

/-- One step. The block fetches nothing: what it performs is the oldest command the host has presented (10_state.md
R20; log 3). -/
def step (s : State) : Host.Outcome State Fault Refusal :=
  match s.inputs with
  | [] => .refused .noCommand
  | .rst :: rest => .next ({ s with inputs := rest } : State).hardReset
  | .command c :: rest =>
    match decode c with
    | .ok i => exec i { s with inputs := rest }
    | .error _ => ({ s with inputs := rest } : State).refuseUndefined

/-- `s` with the command a table row numbers `w` presented so that the very next step takes it (log 3). -/
def State.withFetchWord (s : State) (nbits w : Nat) : State := s.presentNext (tableCmd nbits w)

end Sys2Proof.Machine
end

