-- ==== Sys2Proof/Machine/Assembler.lean ====
section
/-! DEFINITION. The assembler notation of 30_encoding.md R57: a line of text, the line it parses to, the commands that
line stands for. It is notation for the host's use; no step reads it. R57 gives the forms and no grammar: what the
docstrings below call the model's choice is log 15. -/

namespace Sys2Proof.Machine

/-- A bit-string literal read as a binary number, its first character the highest bit (30_encoding.md R57). -/
def bitsToNat (bits : List Bool) : Nat := bits.foldl (fun n b => 2 * n + b.toNat) 0

/-- A parsed line of the assembler: the forms of 30_encoding.md R57 with their numbers as written. A character literal
is its ASCII number (log 15). -/
inductive AsmLine where
  | clr
  | cfg (w : Nat)
  | ldcode (sym len code : Nat)
  | ldcodeBits (sym : Nat) (bits : List Bool)
  | putu (u : Nat)
  | putb (b : Nat)
  | endStream
  | rdst
  | rderr
  | rdcnt
  | rdw (i : Nat)
  | puts (text : List Nat)
deriving DecidableEq, Repr

/-- A number as an 8-bit operand, none where it does not fit. -/
def byteOperand (n : Nat) : Option Byte := if n < 2 ^ Config.symBits then some (BitVec.ofNat Config.symBits n) else none

/-- `LDCODE` from numbers, none where an operand does not fit its field. -/
def ldcodeOperands (sym len code : Nat) : Option (List Instr) :=
  match byteOperand sym, byteOperand len with
  | some a, some l => if code < 2 ^ Config.codeBits then some [.ldcode a l (BitVec.ofNat Config.codeBits code)] else none
  | _, _ => none

/-- The commands a line stands for (30_encoding.md R57): one, or for the pseudo-command `PUTS` one `PUTB` per
character. None where an operand does not fit its field. -/
def AsmLine.assemble : AsmLine → Option (List Instr)
  | .clr => some [.clr]
  | .cfg w => (byteOperand w).map fun a => [.cfg a]
  | .ldcode sym len code => ldcodeOperands sym len code
  | .ldcodeBits sym bits => ldcodeOperands sym bits.length (bitsToNat bits)
  | .putu u => (byteOperand u).map fun a => [.putu a]
  | .putb b => (byteOperand b).map fun a => [.putb a]
  | .endStream => some [.endStream]
  | .rdst => some [.rdst]
  | .rderr => some [.rderr]
  | .rdcnt => some [.rdcnt]
  | .rdw i => if i < 2 ^ Config.wordBits then some [.rdw (BitVec.ofNat Config.wordBits i)] else none
  | .puts text => (text.mapM byteOperand).map fun bs => bs.map .putb

/-- An operand as written: a number, a bit-string literal, a text. -/
inductive AsmOperand where
  | num (n : Nat)
  | bits (bs : List Bool)
  | text (cs : List Nat)
deriving DecidableEq, Repr

/-- The value of a digit in the given base, 10 or 16. DESIGN CHOICE: hexadecimal digits of either case (log 15). -/
def digitValue (base : Nat) (c : Char) : Option Nat :=
  let n := c.toNat
  let v := if 48 ≤ n ∧ n ≤ 57 then n - 48 else if 65 ≤ n ∧ n ≤ 70 then n - 55
    else if 97 ≤ n ∧ n ≤ 102 then n - 87 else base
  if v < base then some v else none

/-- The digits at the front of a text, added to `acc` in the given base, and the rest. -/
def readDigits (base acc : Nat) : List Char → Nat × List Char
  | [] => (acc, [])
  | c :: cs =>
    match digitValue base c with
    | some v => readDigits base (base * acc + v) cs
    | none => (acc, c :: cs)

/-- A number of at least one digit in the given base. -/
def readNumber (base : Nat) : List Char → Option (AsmOperand × List Char)
  | [] => none
  | c :: cs =>
    match digitValue base c with
    | some v => let r := readDigits base v cs; some (.num r.1, r.2)
    | none => none

/-- The characters up to a closing double quote, and what follows it. DESIGN CHOICE: no escapes, and a `;` between the
quotes starts no comment (log 15). -/
def readQuoted : List Char → Option (List Char × List Char)
  | [] => none
  | '"' :: cs => some ([], cs)
  | c :: cs => (readQuoted cs).map fun r => (c :: r.1, r.2)

/-- A character of a bit-string literal. -/
def bitOf : Char → Option Bool
  | '0' => some false
  | '1' => some true
  | _ => none

/-- The ASCII code of a character, none where it has none. -/
def asciiCode (c : Char) : Option Nat := if c.toNat < 128 then some c.toNat else none

/-- One operand at the front of a text: `0x` hexadecimal, decimal, `'A'`, `b"01"`, `"text"` (30_encoding.md R57). -/
def readOperand : List Char → Option (AsmOperand × List Char)
  | '0' :: 'x' :: cs => readNumber 16 cs
  | '\'' :: c :: '\'' :: cs => (asciiCode c).map fun n => (.num n, cs)
  | 'b' :: '"' :: cs =>
    match readQuoted cs with
    | some (q, rest) => (q.mapM bitOf).map fun bs => (.bits bs, rest)
    | none => none
  | '"' :: cs =>
    match readQuoted cs with
    | some (q, rest) => (q.mapM asciiCode).map fun ns => (.text ns, rest)
    | none => none
  | cs => readNumber 10 cs

/-- Leading spaces and tabs dropped. DESIGN CHOICE: that a space or a tab may stand before and after the mnemonic, an
operand and a comma, that none need stand, and that no other character may, is the model's (log 15). -/
def skipBlanks (cs : List Char) : List Char := cs.dropWhile fun c => c == ' ' || c == '\t'

/-- The end of a line, or a comment that runs to it. -/
def atEnd : List Char → Bool
  | [] => true
  | c :: _ => c == ';'

/-- Operands separated by commas up to the end of the line; the fuel bounds their number. -/
def readOperands : (fuel : Nat) → List Char → Option (List AsmOperand)
  | 0, _ => none
  | fuel + 1, cs =>
    match readOperand (skipBlanks cs) with
    | none => none
    | some (x, rest) =>
      let rest := skipBlanks rest
      if atEnd rest then some [x]
      else if rest.head? = some ',' then (readOperands fuel rest.tail).map (x :: ·)
      else none

/-- The forms of the table of 30_encoding.md R57, by mnemonic and operands. DESIGN CHOICE: mnemonics in capitals only
(log 15). -/
def asmForm (word : List Char) (ops : List AsmOperand) : Option AsmLine :=
  if word = ['C', 'L', 'R'] ∧ ops = [] then some .clr
  else if word = ['E', 'N', 'D'] ∧ ops = [] then some .endStream
  else if word = ['R', 'D', 'S', 'T'] ∧ ops = [] then some .rdst
  else if word = ['R', 'D', 'E', 'R', 'R'] ∧ ops = [] then some .rderr
  else if word = ['R', 'D', 'C', 'N', 'T'] ∧ ops = [] then some .rdcnt
  else
    match ops with
    | [.num n] =>
      if word = ['C', 'F', 'G'] then some (.cfg n)
      else if word = ['P', 'U', 'T', 'U'] then some (.putu n)
      else if word = ['P', 'U', 'T', 'B'] then some (.putb n)
      else if word = ['R', 'D', 'W'] then some (.rdw n)
      else none
    | [.num sym, .num len, .num code] =>
      if word = ['L', 'D', 'C', 'O', 'D', 'E'] then some (.ldcode sym len code) else none
    | [.num sym, .bits bs] =>
      if word = ['L', 'D', 'C', 'O', 'D', 'E'] then some (.ldcodeBits sym bs) else none
    | [.text cs] => if word = ['P', 'U', 'T', 'S'] then some (.puts cs) else none
    | _ => none

/-- A line of assembler text (30_encoding.md R57), none where it holds no command or is of none of R57's forms. -/
def parseLine (line : List Char) : Option AsmLine :=
  let line := skipBlanks line
  let word := line.takeWhile Char.isAlpha
  let rest := skipBlanks (line.drop word.length)
  if atEnd rest then asmForm word []
  else
    match readOperands rest.length rest with
    | some ops => asmForm word ops
    | none => none

/-- The commands a line of assembler text stands for, none where it is of none of R57's forms. DESIGN CHOICE: a line
with nothing on it, or nothing but a comment, stands for no commands; R57 does not say (log 15). -/
def assembleLine (line : List Char) : Option (List Cmd) :=
  if atEnd (skipBlanks line) then some []
  else
    match parseLine line with
    | some l => l.assemble.map fun is => is.map encode
    | none => none

end Sys2Proof.Machine
end

