-- ==== Sys2Proof/Machine/Stream.lean ====
section
/-! DEFINITION. The words in which the spec speaks of a whole run: bit strings (00_scope.md section 5), the units a
command packs, the reference decoder of 41_packing.md R79, and the byte image a wrapper makes of the output
(20_memory.md R35). No step reads them. -/

namespace Sys2Proof.Machine

/-- The bit string of a word: `w[31], ..., w[0]` (00_scope.md section 5). -/
def wordString (w : Word) : List Bool := (List.range Config.wordBits).map w.getMsbD

/-- The bit string of a sequence of words (00_scope.md section 5). -/
def wordsString (ws : List Word) : List Bool := ws.flatMap wordString

/-- The bit string of the low `n` bits of a code: `code[n-1], ..., code[0]` (00_scope.md section 5). -/
def codeString (code : Code) (n : Nat) : List Bool := (List.range n).map fun k => code.getLsbD (n - 1 - k)

/-- The bit string of an entry, its root bit first (00_scope.md section 5, 41_packing.md R81). -/
def CodeEntry.string (e : CodeEntry) : List Bool := codeString e.code e.len.toNat

/-- The top `FILL` bits of `ACC`, earliest first (10_state.md R13). -/
def Block.openString (b : Block) : List Bool := (List.range b.fill.toNat).map b.acc.getMsbD

/-- Every bit appended so far: the string of `OUT`, then the open bits (41_packing.md R76). -/
def Block.stream (b : Block) : List Bool := wordsString b.out ++ b.openString

/-- The units a command packs, in order (41_packing.md R73, R74). -/
def unitsOf (w : BitVec 4) : Instr → List Byte
  | .clr => []
  | .cfg _ => []
  | .ldcode _ _ _ => []
  | .putu a => [unitOf w a]
  | .putb a => byteUnits w a
  | .endStream => []
  | .rdst => []
  | .rderr => []
  | .rdcnt => []
  | .rdw _ => []

/-- The bit string of a unit's entry, empty where it has none. -/
def unitString (cb : Codebase) (u : Byte) : List Bool :=
  match Codebase.lookup cb u with
  | some e => e.string
  | none => []

/-- `bits(CB[u_1]) ‖ ... ‖ bits(CB[u_n])` (41_packing.md R76). -/
def unitsString (cb : Codebase) (us : List Byte) : List Bool := us.flatMap (unitString cb)

/-- Every unit value. -/
def allUnits : List Byte := (List.range Config.cbEntries).map (BitVec.ofNat Config.symBits)

/-- The unit has a valid entry whose bit string begins `bs`. -/
def unitMatches (cb : Codebase) (bs : List Bool) (u : Byte) : Bool :=
  match Codebase.lookup cb u with
  | some e => e.string.isPrefixOf bs
  | none => false

/-- The reference decoder: `n` units from a bit string (41_packing.md R79). It is no part of the block. DESIGN CHOICE:
R79 says "find the valid entry" and promises at most one only for a prefix-free codebase; where several match the model
takes the lowest unit value, and where none matches it answers none (log 17). -/
def decodeStream (cb : Codebase) : (n : Nat) → List Bool → Option (List Byte)
  | 0, _ => some []
  | n + 1, bs =>
    match allUnits.find? (unitMatches cb bs) with
    | none => none
    | some u => (decodeStream cb n (bs.drop (unitString cb u).length)).map (u :: ·)

/-- No valid entry's bit string begins another valid entry's; two equal codes begin each other (41_packing.md R79). -/
def prefixFree (cb : Codebase) : Prop :=
  ∀ (u v : Byte) (e f : CodeEntry), u ≠ v → Codebase.lookup cb u = some e → Codebase.lookup cb v = some f →
    e.string.isPrefixOf f.string = false

/-- The four bytes of a word in ascending address order (20_memory.md R35). -/
def wordBytes (o : Config.ByteOrder) (w : Word) : List Byte :=
  match o with
  | .little => [w.extractLsb' 0 8, w.extractLsb' 8 8, w.extractLsb' 16 8, w.extractLsb' 24 8]
  | .big => [w.extractLsb' 24 8, w.extractLsb' 16 8, w.extractLsb' 8 8, w.extractLsb' 0 8]

/-- The byte image a wrapper makes of the output; the byte at address a is element a (20_memory.md R35). -/
def State.byteImage (s : State) : List Byte := s.blk.out.flatMap (wordBytes s.params.byteOrder)

end Sys2Proof.Machine
end

