-- ==== Sys2Proof/Safety.lean ====
section
/-! DEFINITION. What claims speak of: the invariants of 10_state.md R19, and runs in which every command is
performed. -/

namespace Sys2Proof.Machine

/-- The bits of `acc` below the top `fill` are zero (10_state.md R13, R19 (a)). -/
abbrev lowClear (fill : Nat) (acc : Word) : Prop := ∀ k, k < Config.wordBits - fill → acc.getLsbD k = false

/-- An entry as `LDCODE` makes it: length 1 to 64, and no bit of the code at or above it (10_state.md R19 (h)). -/
structure CodeEntry.wf (e : CodeEntry) : Prop where
  lenPos : 1 ≤ e.len.toNat
  lenLe : e.len.toNat ≤ Config.maxLen
  codeClear : ∀ k, e.len.toNat ≤ k → e.code.getLsbD k = false

/-- The codes the block puts in `ERR` (60_exceptions.md R91). -/
def raisedCodes : List (BitVec 8) := [0, 7, 8, 9, 11, 12]

/-- The invariants (a) to (h) of 10_state.md R19, and what 60_exceptions.md R91 says of `ERR`. -/
structure Block.Inv (depth : Nat) (b : Block) : Prop where
  accClear : lowClear b.fill.toNat b.acc
  fillLe : b.fill.toNat ≤ 31
  countLe : b.wcount ≤ depth
  errFault : b.err ≠ 0 ↔ b.phase = .fault
  closedEmpty : b.phase ≠ .pack → b.fill = 0 ∧ b.acc = 0
  countZero : b.phase = .load ∨ b.phase = .fault → b.out = []
  width : b.w = 4 ∨ b.w = 8
  entries : ∀ u e, Codebase.lookup b.cb u = some e → e.wf
  errCode : b.err ∈ raisedCodes

/-- The invariant of the machine: the block's, and the bounds on `OUT_DEPTH` (00_scope.md R5). -/
structure State.Inv (s : State) : Prop where
  params : s.params.wf
  block : s.blk.Inv s.params.outDepth

/-- The response port shows `ok` = 1. -/
def State.answeredOk (s : State) : Bool :=
  match s.resp with
  | some r => r.ok
  | none => false

/-- `n` steps, each of which answers a next state whose response has `ok` = 1; none where one does not. -/
def stepsOk : (n : Nat) → State → Option State
  | 0, s => some s
  | n + 1, s =>
    match step s with
    | .next t => if t.answeredOk then stepsOk n t else none
    | .fault _ => none
    | .refused _ => none

/-- The host presents the commands, and every one of them is performed: the state after the last. -/
def performAll (is : List Instr) (s : State) : Option State :=
  stepsOk is.length (s.present (is.map encode))

/-- The commands by which a host sets up the block before the first unit (70_reset_and_hazards.md R102). -/
def isSetup : Instr → Bool
  | .clr => false
  | .cfg _ => true
  | .ldcode _ _ _ => true
  | .putu _ => false
  | .putb _ => false
  | .endStream => false
  | .rdst => false
  | .rderr => false
  | .rdcnt => false
  | .rdw _ => false

/-- The commands that pack units (41_packing.md R73, R74). -/
def isPack : Instr → Bool
  | .clr => false
  | .cfg _ => false
  | .ldcode _ _ _ => false
  | .putu _ => true
  | .putb _ => true
  | .endStream => false
  | .rdst => false
  | .rderr => false
  | .rdcnt => false
  | .rdw _ => false

end Sys2Proof.Machine
end

