-- ==== Sys2Proof/Certificates/Slice0/Obligations.lean ====
section
/-! DEFINITION. The statements for the provers. Each docstring names the rule of spec/ it comes from. That a command
leaves `inputs` and `params` alone and that its response stands in `resp` is the model's form of what the spec calls
inputs and outputs of a step (logs 1 to 4). -/

open Sys2Proof Sys2Proof.Machine

/-! ### Encoding -/

/-- 30_encoding.md R56: `encode` and `decode` are inverse to each other on the defined commands. -/
def Obligations.EncodeAndDecodeAreInverse : Prop :=
  (∀ i : Instr, decode (encode i) = .ok i) ∧ (∀ (c : Cmd) (i : Instr), decode c = .ok i → encode i = c)

/-- 30_encoding.md R53 and R54: a command decodes to a mnemonic exactly when it matches that mnemonic's row, match and
mask as the table prints them, and is undefined exactly when it matches no row. -/
def Obligations.DecodingFollowsTheOpcodeMap : Prop :=
  ∀ c : Cmd,
    (decode c = .ok .clr ↔ c &&& 0xFFFFFFFFFFFFFFFFFFFFFFFF = 0x100000000000000000000000) ∧
    ((∃ a, decode c = .ok (.cfg a)) ↔ c &&& 0xFFFF00FFFFFFFFFFFFFFFFFF = 0x200000000000000000000000) ∧
    ((∃ a l d, decode c = .ok (.ldcode a l d)) ↔ c &&& 0xFFFF00000000000000000000 = 0x300000000000000000000000) ∧
    ((∃ a, decode c = .ok (.putu a)) ↔ c &&& 0xFFFF00FFFFFFFFFFFFFFFFFF = 0x400000000000000000000000) ∧
    ((∃ a, decode c = .ok (.putb a)) ↔ c &&& 0xFFFF00FFFFFFFFFFFFFFFFFF = 0x500000000000000000000000) ∧
    (decode c = .ok .endStream ↔ c &&& 0xFFFFFFFFFFFFFFFFFFFFFFFF = 0x600000000000000000000000) ∧
    (decode c = .ok .rdst ↔ c &&& 0xFFFFFFFFFFFFFFFFFFFFFFFF = 0x800000000000000000000000) ∧
    (decode c = .ok .rderr ↔ c &&& 0xFFFFFFFFFFFFFFFFFFFFFFFF = 0x900000000000000000000000) ∧
    (decode c = .ok .rdcnt ↔ c &&& 0xFFFFFFFFFFFFFFFFFFFFFFFF = 0xA00000000000000000000000) ∧
    ((∃ i, decode c = .ok (.rdw i)) ↔ c &&& 0xFFFFFFFFFFFFFFFF00000000 = 0xB00000000000000000000000) ∧
    ((∃ r, decode c = .error r) ↔ ∀ i : Instr, ¬ i.row.matches c)

/-- 30_encoding.md R50 and R52: an operand is the number its bits of the command spell. -/
def Obligations.OperandsAreTheirFields : Prop :=
  ∀ c : Cmd,
    (∀ a, decode c = .ok (.cfg a) → a.toNat = c.toNat / 2 ^ 72 % 2 ^ 8) ∧
    (∀ a l d, decode c = .ok (.ldcode a l d) →
      a.toNat = c.toNat / 2 ^ 72 % 2 ^ 8 ∧ l.toNat = c.toNat / 2 ^ 64 % 2 ^ 8 ∧ d.toNat = c.toNat % 2 ^ 64) ∧
    (∀ a, decode c = .ok (.putu a) → a.toNat = c.toNat / 2 ^ 72 % 2 ^ 8) ∧
    (∀ a, decode c = .ok (.putb a) → a.toNat = c.toNat / 2 ^ 72 % 2 ^ 8) ∧
    (∀ i, decode c = .ok (.rdw i) → i.toNat = c.toNat % 2 ^ 32)

/-- Sanity: words of 30_encoding.md section 7 decode to the commands it names them for. -/
def Obligations.WorkedEncodingsDecode : Prop :=
  decode 0x200004000000000000000000 = .ok (.cfg 4) ∧
  decode 0x3000FF408000000000000001 = .ok (.ldcode 0xFF 64 0x8000000000000001) ∧
  decode 0x50002B000000000000000000 = .ok (.putb 0x2B) ∧
  decode 0xB00000000000000000000001 = .ok (.rdw 1) ∧
  decode 0x400041010000000000000000 = .error .fieldNotZero ∧
  decode 0x600100000000000000000000 = .error .reservedNotZero

/-! ### A step -/

/-- 40_setup.md R60, 30_encoding.md R54: a step takes the oldest command; a defined one is performed by its rule, an
undefined one is refused in every phase and changes no element. -/
def Obligations.StepPerformsTheDecodedCommand : Prop :=
  ∀ (s : State) (c : Cmd) (rest : List Input), s.inputs = .command c :: rest →
    (∀ i, decode c = .ok i → step s = exec i { s with inputs := rest }) ∧
    (∀ r, decode c = .error r → step s = .next { s with inputs := rest, resp := some { ok := false, data := 0 } })

/-- 70_reset_and_hazards.md R100, with the model's form of `rst` as an event between commands (log 6): from every
state to the reset state of 10_state.md R24, without a response. With nothing presented there is no step (log 7). -/
def Obligations.RstTakesEveryStateToReset : Prop :=
  ∀ s : State,
    (∀ rest, s.inputs = .rst :: rest →
      step s = .next { blk := State.reset.blk, params := s.params, inputs := rest, resp := none }) ∧
    (s.inputs = [] → step s = .refused .noCommand)

/-- 41_packing.md R78: the elements and the response after a step depend on the elements before it, the command and
`OUT_DEPTH`, and on nothing else: not on later inputs, the last response or `OUT_BYTE_ORDER`. -/
def Obligations.StepDependsOnBlockCommandAndDepth : Prop :=
  ∀ (s s' : State) (x : Input) (rest rest' : List Input),
    s.blk = s'.blk → s.params.outDepth = s'.params.outDepth → s.inputs = x :: rest → s'.inputs = x :: rest' →
    ∃ t t', step s = .next t ∧ step s' = .next t' ∧ t.blk = t'.blk ∧ t.resp = t'.resp ∧
      t.inputs = rest ∧ t'.inputs = rest' ∧ t.params = s.params ∧ t'.params = s'.params

/-- 60_exceptions.md R90, 30_encoding.md R51: every command in every state ends in a next state with one response, and
in exactly one of three ways: performed with `ok` = 1; refused with (0, 0) and every element as before; faulted with
(0, 0), phase FAULT entered and a non-zero `ERR`. -/
def Obligations.EveryCommandEndsInOneOfThreeOutcomes : Prop :=
  ∀ (i : Instr) (s : State), ∃ t r, exec i s = .next t ∧ t.resp = some r ∧
    t.inputs = s.inputs ∧ t.params = s.params ∧
    ((r.ok = true ∧ (t.blk.phase = .fault → s.blk.phase = .fault)) ∨
     (r = { ok := false, data := 0 } ∧ t.blk = s.blk) ∨
     (r = { ok := false, data := 0 } ∧ s.blk.phase ≠ .fault ∧ t.blk.phase = .fault ∧ t.blk.err ≠ 0))

/-! ### Setup commands -/

/-- 40_setup.md R61, 10_state.md R24: `CLR` performs in every phase, responds (1, 0) and leaves every element at its
reset value, which is the state after reset. -/
def Obligations.ClrGivesTheResetState : Prop :=
  ∀ s : State, ∃ b : Block,
    exec .clr s = .next { s with blk := b, resp := some { ok := true, data := 0 } } ∧ State.reset.blk = b ∧
    (∀ u, Codebase.lookup b.cb u = none) ∧ b.w = 8 ∧ b.acc = 0 ∧ b.fill = 0 ∧ b.out = [] ∧ b.wcount = 0 ∧
    b.phase = .load ∧ b.err = 0 ∧ b.dup = false ∧ b.doneO = false ∧ b.faultO = false

/-- 40_setup.md R62: `CFG`, in every phase and for every operand. -/
def Obligations.CfgSetsTheWidthOrFaults : Prop :=
  ∀ (a : Byte) (s : State),
    (s.blk.phase = .load → a = 4 →
      exec (.cfg a) s = .next { s with blk := { s.blk with w := 4 }, resp := some { ok := true, data := 0 } }) ∧
    (s.blk.phase = .load → a = 8 →
      exec (.cfg a) s = .next { s with blk := { s.blk with w := 8 }, resp := some { ok := true, data := 0 } }) ∧
    (s.blk.phase = .load → a ≠ 4 → a ≠ 8 →
      exec (.cfg a) s = .next { s with
        blk := { s.blk with err := 9, phase := .fault, acc := 0, fill := 0, out := [] },
        resp := some { ok := false, data := 0 } }) ∧
    (s.blk.phase ≠ .load → exec (.cfg a) s = .next { s with resp := some { ok := false, data := 0 } })

/-- 40_setup.md R63: `LDCODE`, in every phase and for every operand. The stored entry has length `L` and the low `L`
bits of `D`; no other entry changes; a second load changes no entry and sets `DUP`; the length checks come first. -/
def Obligations.LdcodeLoadsTheFirstCode : Prop :=
  ∀ (a l : Byte) (d : Code) (s : State),
    (s.blk.phase = .load → l.toNat = 0 →
      exec (.ldcode a l d) s = .next { s with
        blk := { s.blk with err := 7, phase := .fault, acc := 0, fill := 0, out := [] },
        resp := some { ok := false, data := 0 } }) ∧
    (s.blk.phase = .load → 64 < l.toNat →
      exec (.ldcode a l d) s = .next { s with
        blk := { s.blk with err := 8, phase := .fault, acc := 0, fill := 0, out := [] },
        resp := some { ok := false, data := 0 } }) ∧
    (s.blk.phase = .load → 1 ≤ l.toNat → l.toNat ≤ 64 → (∃ e, Codebase.lookup s.blk.cb a = some e) →
      exec (.ldcode a l d) s = .next { s with
        blk := { s.blk with dup := true }, resp := some { ok := true, data := 0 } }) ∧
    (s.blk.phase = .load → 1 ≤ l.toNat → l.toNat ≤ 64 → Codebase.lookup s.blk.cb a = none →
      ∃ cb e, exec (.ldcode a l d) s = .next { s with
          blk := { s.blk with cb := cb }, resp := some { ok := true, data := 0 } } ∧
        Codebase.lookup cb a = some e ∧ e.len.toNat = l.toNat ∧
        (∀ k, e.code.getLsbD k = (decide (k < l.toNat) && d.getLsbD k)) ∧
        ∀ u, u ≠ a → Codebase.lookup cb u = Codebase.lookup s.blk.cb u) ∧
    (s.blk.phase ≠ .load → exec (.ldcode a l d) s = .next { s with resp := some { ok := false, data := 0 } })

/-- 30_encoding.md R57 with 40_setup.md R63 and 41_packing.md R81 (the spec's own inference): loading a bit-string
literal of 1 to 64 bits gives an entry whose bit string is the literal, root bit first. -/
def Obligations.BitLiteralLoadsItsOwnBits : Prop :=
  ∀ (sym : Nat) (bits : List Bool) (s : State), sym < 256 → 1 ≤ bits.length → bits.length ≤ 64 →
    s.blk.phase = .load → Codebase.lookup s.blk.cb (BitVec.ofNat 8 sym) = none →
    ∃ i t e, AsmLine.assemble (.ldcodeBits sym bits) = some [i] ∧ exec i s = .next t ∧
      Codebase.lookup t.blk.cb (BitVec.ofNat 8 sym) = some e ∧ e.string = bits

/-! ### Packing commands -/

/-- 41_packing.md R72: `APPEND` by the space left. A code shorter than the space is or-ed in below the filled bits;
one that equals it completes the word, which is pushed at once; a longer one is split, its high-order part completing
the word, its low-order rest appended to an empty one. -/
def Obligations.AppendFitsFillsOrSplits : Prop :=
  ∀ (depth : Nat) (e : CodeEntry) (b : Block), 1 ≤ e.len.toNat → e.len.toNat ≤ 64 →
    (∀ k, e.len.toNat ≤ k → e.code.getLsbD k = false) → b.fill.toNat ≤ 31 →
    let space := 32 - b.fill.toNat
    (e.len.toNat < space →
      append depth e b = .ok { b with
        acc := b.acc ||| (e.code.setWidth 32 <<< (space - e.len.toNat)),
        fill := BitVec.ofNat 6 (b.fill.toNat + e.len.toNat) }) ∧
    (e.len.toNat = space → b.wcount ≠ depth →
      append depth e b = .ok { b with acc := 0, fill := 0, out := b.out ++ [b.acc ||| e.code.setWidth 32] }) ∧
    (space < e.len.toNat → b.wcount ≠ depth →
      append depth e b = append depth
        { len := BitVec.ofNat 7 (e.len.toNat - space),
          code := e.code &&& BitVec.ofNat 64 (2 ^ (e.len.toNat - space) - 1) }
        { b with acc := 0, fill := 0, out := b.out ++ [b.acc ||| (e.code >>> (e.len.toNat - space)).setWidth 32] }) ∧
    (space ≤ e.len.toNat → b.wcount = depth → append depth e b = .error .outputOverflow)

/-- 41_packing.md R73, R76: `PUTU` performs in LOAD and PACK when the unit (the low `W` bits of `A`) has an entry and
the words it finishes fit the buffer: the entry's bits follow the stream, the words already in `OUT` stay, and nothing
but `ACC`, `FILL`, `OUT` and `PHASE` changes. -/
def Obligations.PutuAppendsItsUnitsCode : Prop :=
  ∀ (a : Byte) (s : State) (e : CodeEntry), s.Inv → s.blk.phase = .load ∨ s.blk.phase = .pack →
    Codebase.lookup s.blk.cb (if s.blk.w = 4 then a &&& 0x0F else a) = some e →
    (s.blk.pos + e.len.toNat) / 32 ≤ s.params.outDepth →
    ∃ acc fill ws,
      exec (.putu a) s = .next { s with
        blk := { s.blk with acc := acc, fill := fill, out := s.blk.out ++ ws, phase := .pack },
        resp := some { ok := true, data := 0 } } ∧
      wordsString ws ++ (List.range fill.toNat).map acc.getMsbD = s.blk.openString ++ e.string ∧
      fill.toNat ≤ 31 ∧ ∀ k, k < 32 - fill.toNat → acc.getLsbD k = false

/-- 41_packing.md R73, R70, R71: where `PUTU` faults and where it is refused. -/
def Obligations.PutuFaultsAndRefusals : Prop :=
  ∀ (a : Byte) (s : State), s.Inv →
    (s.blk.phase = .load ∨ s.blk.phase = .pack →
      Codebase.lookup s.blk.cb (if s.blk.w = 4 then a &&& 0x0F else a) = none →
      exec (.putu a) s = .next { s with
        blk := { s.blk with err := 11, phase := .fault, acc := 0, fill := 0, out := [] },
        resp := some { ok := false, data := 0 } }) ∧
    (s.blk.phase = .load ∨ s.blk.phase = .pack →
      ∀ e, Codebase.lookup s.blk.cb (if s.blk.w = 4 then a &&& 0x0F else a) = some e →
      s.params.outDepth < (s.blk.pos + e.len.toNat) / 32 →
      exec (.putu a) s = .next { s with
        blk := { s.blk with err := 12, phase := .fault, acc := 0, fill := 0, out := [] },
        resp := some { ok := false, data := 0 } }) ∧
    (s.blk.phase = .done ∨ s.blk.phase = .fault →
      exec (.putu a) s = .next { s with resp := some { ok := false, data := 0 } })

/-- 41_packing.md R74 (a), (b): at `W` = 8 `PUTB` does what `PUTU` of the byte does; at `W` = 4 it does what `PUTU` of
the low nibble and then of the high nibble would do, and where the first is not performed, what the first does. -/
def Obligations.PutbIsPutuOfItsUnits : Prop :=
  ∀ (a : Byte) (s : State),
    (s.blk.w = 8 → exec (.putb a) s = exec (.putu a) s) ∧
    (s.blk.w = 4 → ∃ t, exec (.putu (a &&& 0x0F)) s = .next t ∧
      exec (.putb a) s = if t.blk.phase = .pack then exec (.putu (a >>> 4)) t else .next t)

/-- 41_packing.md R74, R76: `PUTB` performs in LOAD and PACK when its units have entries and the words they finish fit
the buffer: their bits follow the stream, low nibble first at `W` = 4. -/
def Obligations.PutbAppendsItsUnitsCodes : Prop :=
  ∀ (a : Byte) (s : State) (units : List Byte), s.Inv → s.blk.phase = .load ∨ s.blk.phase = .pack →
    units = (if s.blk.w = 8 then [a] else [a &&& 0x0F, a >>> 4]) →
    (∀ u ∈ units, Codebase.lookup s.blk.cb u ≠ none) →
    (s.blk.pos + (unitsString s.blk.cb units).length) / 32 ≤ s.params.outDepth →
    ∃ acc fill ws,
      exec (.putb a) s = .next { s with
        blk := { s.blk with acc := acc, fill := fill, out := s.blk.out ++ ws, phase := .pack },
        resp := some { ok := true, data := 0 } } ∧
      wordsString ws ++ (List.range fill.toNat).map acc.getMsbD =
        s.blk.openString ++ unitsString s.blk.cb units ∧
      fill.toNat ≤ 31 ∧ ∀ k, k < 32 - fill.toNat → acc.getLsbD k = false

/-- 41_packing.md R74, 60_exceptions.md R94 (6): the faults of `PUTB` at `W` = 4 in the order low nibble, high nibble,
and in one nibble lookup before push. A fault of either discards both. -/
def Obligations.PutbFaultsLowNibbleFirst : Prop :=
  ∀ (a : Byte) (s : State), s.Inv → s.blk.w = 4 → s.blk.phase = .load ∨ s.blk.phase = .pack →
    (Codebase.lookup s.blk.cb (a &&& 0x0F) = none →
      exec (.putb a) s = .next { s with
        blk := { s.blk with err := 11, phase := .fault, acc := 0, fill := 0, out := [] },
        resp := some { ok := false, data := 0 } }) ∧
    (∀ e, Codebase.lookup s.blk.cb (a &&& 0x0F) = some e →
      s.params.outDepth < (s.blk.pos + e.len.toNat) / 32 →
      exec (.putb a) s = .next { s with
        blk := { s.blk with err := 12, phase := .fault, acc := 0, fill := 0, out := [] },
        resp := some { ok := false, data := 0 } }) ∧
    (∀ e, Codebase.lookup s.blk.cb (a &&& 0x0F) = some e →
      (s.blk.pos + e.len.toNat) / 32 ≤ s.params.outDepth → Codebase.lookup s.blk.cb (a >>> 4) = none →
      exec (.putb a) s = .next { s with
        blk := { s.blk with err := 11, phase := .fault, acc := 0, fill := 0, out := [] },
        resp := some { ok := false, data := 0 } }) ∧
    (∀ e f, Codebase.lookup s.blk.cb (a &&& 0x0F) = some e →
      (s.blk.pos + e.len.toNat) / 32 ≤ s.params.outDepth → Codebase.lookup s.blk.cb (a >>> 4) = some f →
      s.params.outDepth < (s.blk.pos + e.len.toNat + f.len.toNat) / 32 →
      exec (.putb a) s = .next { s with
        blk := { s.blk with err := 12, phase := .fault, acc := 0, fill := 0, out := [] },
        resp := some { ok := false, data := 0 } })

/-- 41_packing.md R75: `END`, in every phase. It pushes the word under construction only if a bit was written into it,
answers the word count, and faults only where it must push into a full buffer. -/
def Obligations.EndFlushesAndAnswersTheCount : Prop :=
  ∀ s : State, s.Inv →
    (s.blk.phase = .load ∨ s.blk.phase = .pack → s.blk.fill = 0 →
      ∃ d : Word, exec .endStream s = .next { s with
          blk := { s.blk with phase := .done }, resp := some { ok := true, data := d } } ∧
        d.toNat = s.blk.wcount) ∧
    (s.blk.phase = .load ∨ s.blk.phase = .pack → s.blk.fill ≠ 0 → s.blk.wcount < s.params.outDepth →
      ∃ d : Word, exec .endStream s = .next { s with
          blk := { s.blk with acc := 0, fill := 0, out := s.blk.out ++ [s.blk.acc], phase := .done },
          resp := some { ok := true, data := d } } ∧
        d.toNat = s.blk.wcount + 1) ∧
    (s.blk.phase = .load ∨ s.blk.phase = .pack → s.blk.fill ≠ 0 → s.blk.wcount = s.params.outDepth →
      exec .endStream s = .next { s with
        blk := { s.blk with err := 12, phase := .fault, acc := 0, fill := 0, out := [] },
        resp := some { ok := false, data := 0 } }) ∧
    (s.blk.phase = .done ∨ s.blk.phase = .fault →
      exec .endStream s = .next { s with resp := some { ok := false, data := 0 } })

/-- 41_packing.md R73 (a), (b): at `W` = 4 the high nibble of `PUTU`'s operand is ignored, and no packing command
reads an entry above 15: two states that differ only there differ only there afterwards, and answer alike. -/
def Obligations.HighEntriesAreUnreadAtWidth4 : Prop :=
  ∀ (a : Byte) (s : State) (cb : Codebase), s.blk.w = 4 →
    (∀ u : Byte, u.toNat < 16 → Codebase.lookup cb u = Codebase.lookup s.blk.cb u) →
    exec (.putu a) s = exec (.putu (a &&& 0x0F)) s ∧
    ∀ i, (i = .putu a ∨ i = .putb a) →
      ∃ t, exec i s = .next t ∧
        exec i { s with blk := { s.blk with cb := cb } } = .next { t with blk := { t.blk with cb := cb } }

/-- 41_packing.md R77, the spec's own inference ("[derived: from rule R72]"): a performed `PUTU` of a code of n bits
advances the stream position by n and finishes at most two words, at most one if n ≤ 32; the code lies in one word
exactly when n is at most the space left; it is never split if n = 1. -/
def Obligations.PutuAdvancesByItsCodeLength : Prop :=
  ∀ (a : Byte) (s t : State), s.Inv → exec (.putu a) s = .next t → t.answeredOk = true →
    ∃ e, Codebase.lookup s.blk.cb (if s.blk.w = 4 then a &&& 0x0F else a) = some e ∧
      t.blk.pos = s.blk.pos + e.len.toNat ∧
      t.blk.wcount ≤ s.blk.wcount + 2 ∧
      (e.len.toNat ≤ 32 → t.blk.wcount ≤ s.blk.wcount + 1) ∧
      (s.blk.pos / 32 = (t.blk.pos - 1) / 32 ↔ e.len.toNat ≤ 32 - s.blk.fill.toNat) ∧
      (e.len.toNat = 1 → s.blk.pos / 32 = (t.blk.pos - 1) / 32)

/-! ### Read commands -/

/-- 42_readback.md R85: `RDST` performs in every phase, and each field of the status word is where the table puts it
and has the values the table gives it. -/
def Obligations.RdstShowsEveryField : Prop :=
  ∀ s : State, ∃ d : Word, exec .rdst s = .next { s with resp := some { ok := true, data := d } } ∧
    d.toNat % 4 = (match s.blk.phase with
      | .load => 0
      | .pack => 1
      | .done => 2
      | .fault => 3) ∧
    d.toNat / 4 % 2 = s.blk.dup.toNat ∧ d.toNat / 8 % 2 = 0 ∧ d.toNat / 16 % 16 = s.blk.w.toNat ∧
    d.toNat / 256 % 64 = s.blk.fill.toNat ∧ d.toNat / 16384 = 0 ∧
    (s.Inv → (d.toNat / 16 % 16 = 4 ∨ d.toNat / 16 % 16 = 8) ∧ d.toNat / 256 % 64 ≤ 31 ∧
      (s.blk.phase ≠ .pack → d.toNat / 256 % 64 = 0))

/-- 42_readback.md R86: `RDERR` performs in every phase, answers `ERR` and does not clear it. -/
def Obligations.RderrAnswersTheStickyCode : Prop :=
  ∀ s : State, ∃ d : Word, exec .rderr s = .next { s with resp := some { ok := true, data := d } } ∧
    d.toNat = s.blk.err.toNat ∧ (s.Inv → s.blk.phase ≠ .fault → d = 0)

/-- 42_readback.md R87: `RDCNT` performs in every phase and answers the word count, which fits 32 bits
(41_packing.md R80, the spec's own inference). -/
def Obligations.RdcntAnswersTheWordCount : Prop :=
  ∀ s : State, s.Inv → ∃ d : Word, exec .rdcnt s = .next { s with resp := some { ok := true, data := d } } ∧
    d.toNat = s.blk.wcount ∧ (s.blk.phase = .load ∨ s.blk.phase = .fault → d = 0)

/-- 42_readback.md R88: `RDW`, in every phase and for every index. -/
def Obligations.RdwAnswersAFinishedWord : Prop :=
  ∀ (i : Word) (s : State),
    (s.blk.phase = .done → ∀ h : i.toNat < s.blk.wcount,
      exec (.rdw i) s = .next { s with resp := some { ok := true, data := s.blk.out[i.toNat] } }) ∧
    (s.blk.phase = .done → s.blk.wcount ≤ i.toNat →
      exec (.rdw i) s = .next { s with resp := some { ok := false, data := 0 } }) ∧
    (s.blk.phase ≠ .done → exec (.rdw i) s = .next { s with resp := some { ok := false, data := 0 } })

/-- 20_memory.md R39: the read commands change no element, and may be repeated or left out without changing what any
command does, themselves included. -/
def Obligations.ReadsChangeNothingAndRepeat : Prop :=
  ∀ (i : Instr) (s : State), (i = .rdst ∨ i = .rderr ∨ i = .rdcnt ∨ ∃ n, i = .rdw n) →
    ∃ t, exec i s = .next t ∧ t.blk = s.blk ∧ t.params = s.params ∧ t.inputs = s.inputs ∧
      ∀ j, exec j t = exec j s

/-! ### The whole machine -/

/-- 10_state.md R20: the phase changes by the table and in no other way; the stream position goes down only at reset,
`CLR` and fault entry, which set it to 0, and stays within 32·`OUT_DEPTH` + 31. -/
def Obligations.PhaseFollowsTheTable : Prop :=
  ∀ (i : Instr) (s t : State), s.Inv → exec i s = .next t →
    (match i with
     | .clr => t.blk.phase = .load
     | .cfg _ => t.blk.phase = s.blk.phase ∨ (s.blk.phase = .load ∧ t.blk.phase = .fault)
     | .ldcode _ _ _ => t.blk.phase = s.blk.phase ∨ (s.blk.phase = .load ∧ t.blk.phase = .fault)
     | .putu _ =>
       if s.blk.phase = .load ∨ s.blk.phase = .pack then t.blk.phase = .pack ∨ t.blk.phase = .fault
       else t.blk.phase = s.blk.phase
     | .putb _ =>
       if s.blk.phase = .load ∨ s.blk.phase = .pack then t.blk.phase = .pack ∨ t.blk.phase = .fault
       else t.blk.phase = s.blk.phase
     | .endStream =>
       if s.blk.phase = .load then t.blk.phase = .done
       else if s.blk.phase = .pack then t.blk.phase = .done ∨ t.blk.phase = .fault
       else t.blk.phase = s.blk.phase
     | .rdst => t.blk.phase = s.blk.phase
     | .rderr => t.blk.phase = s.blk.phase
     | .rdcnt => t.blk.phase = s.blk.phase
     | .rdw _ => t.blk.phase = s.blk.phase) ∧
    (s.blk.pos ≤ t.blk.pos ∨ (t.blk.pos = 0 ∧ (i = .clr ∨ t.blk.phase = .fault))) ∧
    t.blk.pos ≤ 32 * t.params.outDepth + 31

/-- 60_exceptions.md R93: the complete list of causes of a refusal. A step of a command leaves every element as it was
and answers (0, 0) exactly when one of them holds. -/
def Obligations.RefusalsAreExactlyTheListed : Prop :=
  ∀ (s : State) (c : Cmd) (rest : List Input), s.inputs = .command c :: rest →
    (step s = .next { s with inputs := rest, resp := some { ok := false, data := 0 } } ↔
      match decode c with
      | .error _ => True
      | .ok .clr => False
      | .ok (.cfg _) => s.blk.phase ≠ .load
      | .ok (.ldcode _ _ _) => s.blk.phase ≠ .load
      | .ok (.putu _) => s.blk.phase = .done ∨ s.blk.phase = .fault
      | .ok (.putb _) => s.blk.phase = .done ∨ s.blk.phase = .fault
      | .ok .endStream => s.blk.phase = .done ∨ s.blk.phase = .fault
      | .ok .rdst => False
      | .ok .rderr => False
      | .ok .rdcnt => False
      | .ok (.rdw i) => s.blk.phase ≠ .done ∨ s.blk.wcount ≤ i.toNat)

/-- 60_exceptions.md R92: a command that enters FAULT records the code of the fault it raised, one of the five the
block raises, empties `ACC`, `FILL` and `OUT`, keeps `CB`, `W` and `DUP`, and answers (0, 0). -/
def Obligations.FaultEntryDiscardsTheOutput : Prop :=
  ∀ (i : Instr) (s t : State), exec i s = .next t → s.blk.phase ≠ .fault → t.blk.phase = .fault →
    ∃ f : ErrorCode, (f = .badTreeGiven ∨ f = .maxCodeLengthReached ∨ f = .unsupportedFeature ∨
        f = .codebaseMissingEntry ∨ f = .outputOverflow) ∧
      t = { s with
        blk := { cb := s.blk.cb, w := s.blk.w, dup := s.blk.dup, err := f.code, phase := .fault, acc := 0, fill := 0,
                 out := [] },
        resp := some { ok := false, data := 0 } }

/-- 60_exceptions.md R91: which command puts which code in `ERR`, and for which cause. The block never puts another.
-/
def Obligations.EachErrorCodeHasItsCause : Prop :=
  ∀ (i : Instr) (s t : State), s.Inv → exec i s = .next t → s.blk.phase ≠ .fault → t.blk.phase = .fault →
    (t.blk.err = 7 ∧ ∃ a l d, i = .ldcode a l d ∧ l.toNat = 0) ∨
    (t.blk.err = 8 ∧ ∃ a l d, i = .ldcode a l d ∧ 64 < l.toNat) ∨
    (t.blk.err = 9 ∧ ∃ a, i = .cfg a ∧ a ≠ 4 ∧ a ≠ 8) ∨
    (t.blk.err = 11 ∧ isPack i = true ∧ ∃ u ∈ unitsOf s.blk.w i, Codebase.lookup s.blk.cb u = none) ∨
    (t.blk.err = 12 ∧ isPack i = true ∧
      32 * (s.params.outDepth + 1) ≤ s.blk.pos + (unitsString s.blk.cb (unitsOf s.blk.w i)).length) ∨
    (t.blk.err = 12 ∧ i = .endStream ∧ s.blk.fill ≠ 0 ∧ s.blk.wcount = s.params.outDepth)

/-- 60_exceptions.md R95: nothing but `CLR` and reset leaves FAULT, both to the reset state; until then no element
changes, so `ERR` is never overwritten. -/
def Obligations.OnlyClrAndResetLeaveFault : Prop :=
  ∀ (s t : State), s.blk.phase = .fault → step s = .next t →
    t.blk = s.blk ∨
    (t.blk = State.reset.blk ∧ ∃ rest, s.inputs = .rst :: rest ∨ s.inputs = .command (encode .clr) :: rest)

/-- 41_packing.md R75 (d); 70_reset_and_hazards.md R106, the spec's own inference: in DONE no command but `CLR`, and
nothing but it and reset, changes an element of the block. -/
def Obligations.FinishedOutputIsFixed : Prop :=
  ∀ (s t : State), s.blk.phase = .done → step s = .next t →
    t.blk = s.blk ∨
    (t.blk = State.reset.blk ∧ ∃ rest, s.inputs = .rst :: rest ∨ s.inputs = .command (encode .clr) :: rest)

/-- 10_state.md R11, 20_memory.md R43: an entry changes only by `CLR`, which removes it, and by an `LDCODE` of that
unit in LOAD that finds none; so the codebase is frozen while a stream is open. -/
def Obligations.CodebaseChangesOnlyByClrAndLdcode : Prop :=
  ∀ (i : Instr) (s t : State) (u : Byte), exec i s = .next t →
    Codebase.lookup t.blk.cb u ≠ Codebase.lookup s.blk.cb u →
    (i = .clr ∧ Codebase.lookup t.blk.cb u = none) ∨
    (s.blk.phase = .load ∧ Codebase.lookup s.blk.cb u = none ∧ ∃ l d, i = .ldcode u l d)

/-- 10_state.md R12, R17, R18: which commands write `W`, `ERR` and `DUP`. -/
def Obligations.WidthErrorAndDupHaveTheirWriters : Prop :=
  ∀ (i : Instr) (s t : State), exec i s = .next t →
    (t.blk.w ≠ s.blk.w → i = .clr ∨ (s.blk.phase = .load ∧ ∃ a, i = .cfg a ∧ (a = 4 ∨ a = 8))) ∧
    (t.blk.err ≠ s.blk.err → i = .clr ∨ (s.blk.phase ≠ .fault ∧ t.blk.phase = .fault)) ∧
    (t.blk.dup = true → s.blk.dup = false →
      s.blk.phase = .load ∧ ∃ a l d, i = .ldcode a l d ∧ Codebase.lookup s.blk.cb a ≠ none) ∧
    (t.blk.dup = false → s.blk.dup = true → i = .clr)

/-- 10_state.md R15: words are added at the end of `OUT` and nowhere else, by the packing commands only; none is
changed or removed but by `CLR` and fault entry, which empty it. -/
def Obligations.OutOnlyGrowsAtItsEnd : Prop :=
  ∀ (i : Instr) (s t : State), s.Inv → exec i s = .next t →
    (∃ ws, t.blk.out = s.blk.out ++ ws ∧ (ws ≠ [] → i = .endStream ∨ isPack i = true)) ∨
    (t.blk.out = [] ∧ (i = .clr ∨ (s.blk.phase ≠ .fault ∧ t.blk.phase = .fault)))

/-- 60_exceptions.md R96: `done_o` and `fault_o` are 0 after reset; `done_o` rises only when `END` is performed,
`fault_o` only at fault entry, and both fall only at `CLR` and reset. -/
def Obligations.OutputSignalsRiseAndFall : Prop :=
  State.reset.blk.doneO = false ∧ State.reset.blk.faultO = false ∧
  ∀ (s t : State), step s = .next t →
    (t.blk.doneO = true ↔ t.blk.phase = .done) ∧ (t.blk.faultO = true ↔ t.blk.phase = .fault) ∧
    (t.answeredOk = true → (∃ rest, s.inputs = .command (encode .endStream) :: rest) → t.blk.doneO = true) ∧
    (s.blk.doneO = false → t.blk.doneO = true →
      t.answeredOk = true ∧ ∃ rest, s.inputs = .command (encode .endStream) :: rest) ∧
    (s.blk.faultO = false → t.blk.faultO = true → t.resp = some { ok := false, data := 0 } ∧ t.blk.err ≠ 0) ∧
    ((s.blk.doneO = true ∧ t.blk.doneO = false) ∨ (s.blk.faultO = true ∧ t.blk.faultO = false) →
      t.blk = State.reset.blk ∧ ∃ rest, s.inputs = .rst :: rest ∨ s.inputs = .command (encode .clr) :: rest)

/-- 10_state.md R19, the spec's own inference ("[derived: from rule R24, ...]"): the invariants hold after reset, for
every `OUT_DEPTH` that 00_scope.md R5 allows. -/
def Obligations.InvariantHoldsAfterReset : Prop :=
  ∀ p : Config.Params, 1 ≤ p.outDepth → p.outDepth ≤ 4294967295 → (State.resetWith p).Inv

/-- 10_state.md R19, the spec's own inference ("a model should prove them rather than assume them"): every step keeps
the invariants. -/
def Obligations.EveryStepKeepsTheInvariant : Prop :=
  ∀ s t : State, s.Inv → step s = .next t → t.Inv

/-! ### Whole runs -/

/-- 41_packing.md R76, the spec's own inference ("[derived: from rules R70 to R75; it restates]"): from the reset
state (or after `CLR`), after a setup and packing commands that are all performed, the stream position is the number
T of the units' code bits, the string of `OUT` and the open bits is the units' codes in order, and `WCOUNT` and
`FILL` are T div 32 and T mod 32; after a performed `END`, `OUT` is that string and zero-fill of at most 31 bits, and
the response is the word count. -/
def Obligations.RunPacksItsUnitsInOrder : Prop :=
  ∀ (s : State) (setup packs : List Instr) (t : State), s.params.wf → s.blk = State.reset.blk →
    (∀ i ∈ setup, isSetup i = true) → (∀ i ∈ packs, isPack i = true) →
    let string := unitsString t.blk.cb (packs.flatMap (unitsOf t.blk.w))
    (performAll (setup ++ packs) s = some t →
      t.blk.stream = string ∧ t.blk.pos = string.length ∧ t.blk.wcount = string.length / 32 ∧
      t.blk.fill.toNat = string.length % 32) ∧
    (performAll (setup ++ packs ++ [.endStream]) s = some t →
      wordsString t.blk.out =
        string ++ List.replicate (32 * t.blk.wcount - string.length) false ∧
      t.blk.wcount = (string.length + 31) / 32 ∧
      ∃ d, t.resp = some { ok := true, data := d } ∧ d.toNat = t.blk.wcount)

/-- 20_memory.md R34: in the finished output of a run the bit at stream position q stands in word q div 32 at bit
31 - (q mod 32); every bit after the last is zero. -/
def Obligations.StreamBitsStandMostSignificantFirst : Prop :=
  ∀ (s : State) (setup packs : List Instr) (t : State), s.params.wf → s.blk = State.reset.blk →
    (∀ i ∈ setup, isSetup i = true) → (∀ i ∈ packs, isPack i = true) →
    performAll (setup ++ packs ++ [.endStream]) s = some t →
    ∀ q (h : q / 32 < t.blk.out.length),
      (t.blk.out[q / 32]).getLsbD (31 - q % 32) =
        (unitsString t.blk.cb (packs.flatMap (unitsOf t.blk.w))).getD q false

/-- 41_packing.md R79, the spec's own inference ("[derived: from rule R76]"): if the codebase is prefix-free, the
reference decoder, told the number of units, gives back the units a finished run packed. -/
def Obligations.PrefixFreeRunsDecodeBack : Prop :=
  ∀ (s : State) (setup packs : List Instr) (t : State), s.params.wf → s.blk = State.reset.blk →
    (∀ i ∈ setup, isSetup i = true) → (∀ i ∈ packs, isPack i = true) →
    performAll (setup ++ packs ++ [.endStream]) s = some t → prefixFree t.blk.cb →
    decodeStream t.blk.cb (packs.flatMap (unitsOf t.blk.w)).length (wordsString t.blk.out) =
      some (packs.flatMap (unitsOf t.blk.w))

/-- 70_reset_and_hazards.md R102, R103 (b), (g): a run whose units all have entries and whose words fit the buffer is
performed to its end. -/
def Obligations.CoveredRunsThatFitComplete : Prop :=
  ∀ (s : State) (packs : List Instr), s.Inv → s.blk.phase = .load ∨ s.blk.phase = .pack →
    (∀ i ∈ packs, isPack i = true) →
    (∀ u ∈ packs.flatMap (unitsOf s.blk.w), Codebase.lookup s.blk.cb u ≠ none) →
    (s.blk.pos + (unitsString s.blk.cb (packs.flatMap (unitsOf s.blk.w))).length + 31) / 32 ≤ s.params.outDepth →
    ∃ t, performAll (packs ++ [.endStream]) s = some t ∧ t.blk.phase = .done

/-- 20_memory.md R35: the byte image of the output, by `OUT_BYTE_ORDER`: bytes 4i to 4i+3 are word i, its low byte
first or its high byte first. -/
def Obligations.ByteImageFollowsTheByteOrder : Prop :=
  ∀ (s : State) (i j : Nat) (h : i < s.blk.out.length), j < 4 →
    s.byteImage.length = 4 * s.blk.out.length ∧
    (s.params.byteOrder = .little →
      s.byteImage[4 * i + j]? = some (BitVec.ofNat 8 (s.blk.out[i].toNat / 2 ^ (8 * j)))) ∧
    (s.params.byteOrder = .big →
      s.byteImage[4 * i + j]? = some (BitVec.ofNat 8 (s.blk.out[i].toNat / 2 ^ (8 * (3 - j)))))
end

