-- ==== Sys2Proof/Laws/Bits.lean ====
section
/-! SUPPORT. Bit strings of codes and words: what one pass of `APPEND` does to them. -/

namespace Sys2Proof.Machine

theorem ones_getLsbD (n k : Nat) (hn : n ≤ 64) : (ones n).getLsbD k = decide (k < n) := by
  have h : 2 ^ n - 1 < 2 ^ 64 := by
    have := Nat.pow_le_pow_right (n := 2) (by decide) hn
    have := Nat.two_pow_pos n
    omega
  simp only [ones, BitVec.getLsbD, BitVec.toNat_ofNat, Nat.mod_eq_of_lt h, Nat.testBit_two_pow_sub_one]

@[simp] theorem codeString_length (c : Code) (n : Nat) : (codeString c n).length = n := by simp [codeString]

@[simp] theorem wordString_length (w : Word) : (wordString w).length = 32 := by simp [wordString]

@[simp] theorem wordsString_nil : wordsString [] = [] := rfl

@[simp] theorem wordsString_append (xs ys : List Word) :
    wordsString (xs ++ ys) = wordsString xs ++ wordsString ys := by simp [wordsString]

@[simp] theorem wordsString_singleton (w : Word) : wordsString [w] = wordString w := by simp [wordsString]

theorem wordsString_length (ws : List Word) : (wordsString ws).length = 32 * ws.length := by
  induction ws with
  | nil => rfl
  | cons w ws ih =>
    have : wordsString (w :: ws) = wordString w ++ wordsString ws := by simp [wordsString]
    simp only [this, List.length_append, wordString_length, ih, List.length_cons]
    omega

@[simp] theorem openString_length (b : Block) : b.openString.length = b.fill.toNat := by simp [Block.openString]

theorem stream_length (b : Block) : b.stream.length = b.pos := by
  simp [Block.stream, Block.pos, wordsString_length]

/-- `lowClear` with the word width as a numeral, for arithmetic. -/
theorem lowClear.bit {f : Nat} {acc : Word} (h : lowClear f acc) (k : Nat) (hk : k < 32 - f) :
    acc.getLsbD k = false := h k hk

/-- The greatest length of an entry as a numeral, for arithmetic. -/
theorem CodeEntry.wf.len_le {e : CodeEntry} (h : e.wf) : e.len.toNat ≤ 64 := h.lenLe

/-- The first `s` of the low `r` bits of a code, then the rest. -/
theorem codeString_split (c : Code) (r s : Nat) (h : s ≤ r) :
    codeString c r = codeString (c >>> (r - s)) s ++ codeString c (r - s) := by
  apply List.ext_getElem
  · simp; omega
  · intro k hk hk'
    simp only [codeString_length] at hk
    by_cases hs : k < s
    · rw [List.getElem_append_left (by simpa using hs)]
      simp only [codeString, List.getElem_map, List.getElem_range, BitVec.getLsbD_ushiftRight]
      congr 1
      omega
    · rw [List.getElem_append_right (by simpa using hs)]
      simp only [codeString, List.getElem_map, List.getElem_range, List.length_map, List.length_range]
      congr 1
      omega

theorem codeString_mask (c : Code) (n : Nat) (h : n ≤ 64) : codeString (c &&& ones n) n = codeString c n := by
  apply List.ext_getElem
  · simp
  · intro k hk _
    simp only [codeString_length] at hk
    have : n - 1 - k < n := by omega
    simp [codeString, ones_getLsbD _ _ h, this]

/-- A chunk of `r` bits or-ed in below the top `f` bits of a word whose low bits are zero stands right after them. -/
theorem open_or_chunk (acc : Word) (chunk : Code) (f r : Nat) (hacc : lowClear f acc) (hr : f + r ≤ 32)
    (hc : ∀ k, r ≤ k → chunk.getLsbD k = false) :
    (List.range (f + r)).map (acc ||| (chunk.setWidth 32 <<< (32 - f - r))).getMsbD =
      (List.range f).map acc.getMsbD ++ codeString chunk r := by
  apply List.ext_getElem
  · simp
  · intro k hk _
    simp only [List.length_map, List.length_range] at hk
    have hk32 : k < 32 := by omega
    by_cases hf : k < f
    · rw [List.getElem_append_left (by simpa using hf)]
      simp only [List.getElem_map, List.getElem_range, BitVec.getMsbD, BitVec.getLsbD_or,
        BitVec.getLsbD_shiftLeft, BitVec.getLsbD_setWidth]
      have : chunk.getLsbD (32 - 1 - k - (32 - f - r)) = false := hc _ (by omega)
      simp [this]
    · rw [List.getElem_append_right (by simpa using hf)]
      simp only [List.getElem_map, List.getElem_range, BitVec.getMsbD, BitVec.getLsbD_or,
        BitVec.getLsbD_shiftLeft, BitVec.getLsbD_setWidth, codeString, List.length_map, List.length_range]
      have h0 : acc.getLsbD (32 - 1 - k) = false := hacc.bit _ (by omega)
      have h1 : 32 - 1 - k - (32 - f - r) = r - 1 - (k - f) := by omega
      have h2 : ¬ 32 - 1 - k < 32 - f - r := by omega
      have h3 : 32 - 1 - k < 32 := by omega
      have h4 : r - 1 - (k - f) < 32 := by omega
      rw [h0, h1]
      simp [h2, h3, h4, hk32]

/-- The bits below the chunk stay zero. -/
theorem lowClear_or_chunk (acc : Word) (chunk : Code) (f r : Nat) (hacc : lowClear f acc) :
    lowClear (f + r) (acc ||| (chunk.setWidth 32 <<< (32 - f - r))) := by
  intro k hk
  simp only [Config.wordBits] at hk
  have h1 : acc.getLsbD k = false := hacc.bit k (by omega)
  have h2 : k < 32 - f - r := by omega
  simp [h1, h2]

theorem mask_clear (c : Code) (n : Nat) (h : n ≤ 64) : ∀ k, n ≤ k → (c &&& ones n).getLsbD k = false := by
  intro k hk
  have : ¬ k < n := by omega
  simp [ones_getLsbD _ _ h, this]

theorem lowClear_zero (f : Nat) : lowClear f 0 := by intro k _; simp

end Sys2Proof.Machine
end

