-- ==== Sys2Proof/Laws/State.lean ====
section
/-! SUPPORT. One lemma per field and update, each true by unfolding once. -/

namespace Sys2Proof.Machine

@[simp] theorem clearAcc_cb (b : Block) : b.clearAcc.cb = b.cb := rfl
@[simp] theorem clearAcc_w (b : Block) : b.clearAcc.w = b.w := rfl
@[simp] theorem clearAcc_acc (b : Block) : b.clearAcc.acc = 0 := rfl
@[simp] theorem clearAcc_fill (b : Block) : b.clearAcc.fill = 0 := rfl
@[simp] theorem clearAcc_out (b : Block) : b.clearAcc.out = b.out := rfl
@[simp] theorem clearAcc_phase (b : Block) : b.clearAcc.phase = b.phase := rfl
@[simp] theorem clearAcc_err (b : Block) : b.clearAcc.err = b.err := rfl
@[simp] theorem clearAcc_dup (b : Block) : b.clearAcc.dup = b.dup := rfl

@[simp] theorem clearAcc_wcount (b : Block) : b.clearAcc.wcount = b.wcount := rfl

@[simp] theorem raise_cb (f : ErrorCode) (b : Block) : (b.raise f).cb = b.cb := rfl
@[simp] theorem raise_w (f : ErrorCode) (b : Block) : (b.raise f).w = b.w := rfl
@[simp] theorem raise_acc (f : ErrorCode) (b : Block) : (b.raise f).acc = 0 := rfl
@[simp] theorem raise_fill (f : ErrorCode) (b : Block) : (b.raise f).fill = 0 := rfl
@[simp] theorem raise_out (f : ErrorCode) (b : Block) : (b.raise f).out = [] := rfl
@[simp] theorem raise_phase (f : ErrorCode) (b : Block) : (b.raise f).phase = .fault := rfl
@[simp] theorem raise_err (f : ErrorCode) (b : Block) : (b.raise f).err = f.code := rfl
@[simp] theorem raise_dup (f : ErrorCode) (b : Block) : (b.raise f).dup = b.dup := rfl

@[simp] theorem raise_wcount (f : ErrorCode) (b : Block) : (b.raise f).wcount = 0 := rfl

@[simp] theorem clear_eq_reset (b : Block) : b.clear = Block.reset := rfl
@[simp] theorem reset_w : Block.reset.w = 8 := rfl
@[simp] theorem reset_acc : Block.reset.acc = 0 := rfl
@[simp] theorem reset_fill : Block.reset.fill = 0 := rfl
@[simp] theorem reset_out : Block.reset.out = [] := rfl
@[simp] theorem reset_phase : Block.reset.phase = .load := rfl
@[simp] theorem reset_err : Block.reset.err = 0 := rfl
@[simp] theorem reset_dup : Block.reset.dup = false := rfl
@[simp] theorem reset_wcount : Block.reset.wcount = 0 := rfl

@[simp] theorem hardReset_blk (s : State) : s.hardReset.blk = Block.reset := rfl
@[simp] theorem hardReset_params (s : State) : s.hardReset.params = s.params := rfl
@[simp] theorem hardReset_inputs (s : State) : s.hardReset.inputs = s.inputs := rfl
@[simp] theorem hardReset_resp (s : State) : s.hardReset.resp = none := rfl

@[simp] theorem present_blk (s : State) (cs : List Cmd) : (s.present cs).blk = s.blk := rfl
@[simp] theorem present_params (s : State) (cs : List Cmd) : (s.present cs).params = s.params := rfl
@[simp] theorem present_inputs (s : State) (cs : List Cmd) : (s.present cs).inputs = cs.map .command := rfl
@[simp] theorem present_resp (s : State) (cs : List Cmd) : (s.present cs).resp = s.resp := rfl

@[simp] theorem presentNext_blk (s : State) (c : Cmd) : (s.presentNext c).blk = s.blk := rfl
@[simp] theorem presentNext_params (s : State) (c : Cmd) : (s.presentNext c).params = s.params := rfl
@[simp] theorem presentNext_inputs (s : State) (c : Cmd) : (s.presentNext c).inputs = .command c :: s.inputs := rfl
@[simp] theorem presentNext_resp (s : State) (c : Cmd) : (s.presentNext c).resp = s.resp := rfl

@[simp] theorem withFetchWord_blk (s : State) (n w : Nat) : (s.withFetchWord n w).blk = s.blk := rfl
@[simp] theorem withFetchWord_inputs (s : State) (n w : Nat) :
    (s.withFetchWord n w).inputs = .command (tableCmd n w) :: s.inputs := rfl

@[simp] theorem resetWith_blk (p : Config.Params) : (State.resetWith p).blk = Block.reset := rfl
@[simp] theorem resetWith_params (p : Config.Params) : (State.resetWith p).params = p := rfl
@[simp] theorem resetWith_inputs (p : Config.Params) : (State.resetWith p).inputs = [] := rfl
@[simp] theorem resetWith_resp (p : Config.Params) : (State.resetWith p).resp = none := rfl

/-- The state after `finish`, field by field, for each way a command ends. -/
theorem finish_performed (s : State) (b : Block) (d : Word) :
    s.finish (.performed b d) = .next { s with blk := b, resp := some (.yes d) } := rfl
theorem finish_refused (s : State) : s.finish .refused = .next { s with resp := some .no } := rfl
theorem finish_raised (s : State) (f : ErrorCode) :
    s.finish (.raised f) = .next { s with blk := s.blk.raise f, resp := some .no } := rfl

/-! The codebase as an indexed store: a read after a write to the same place, and to another. -/

theorem lookup_store_same (cb : Codebase) (u : Byte) (e : CodeEntry) :
    Codebase.lookup (Codebase.store cb u e) u = some e := by
  simp [Codebase.lookup, Codebase.store]

theorem lookup_store_other (cb : Codebase) (u v : Byte) (e : CodeEntry) (h : u ≠ v) :
    Codebase.lookup (Codebase.store cb u e) v = Codebase.lookup cb v := by
  have : u.toNat ≠ v.toNat := fun hn => h (BitVec.eq_of_toNat_eq hn)
  simp [Codebase.lookup, Codebase.store, Vector.getElem_set_ne, this]

theorem lookup_reset (u : Byte) : Codebase.lookup Block.reset.cb u = none := by
  simp [Codebase.lookup, Block.reset]

end Sys2Proof.Machine
end

