-- ==== Sys2Proof/Laws/Append.lean ====
section
/-! SUPPORT. What `PUSH`, `APPEND`, `PACKUNIT` and the flush of `END` can do, said once; later proofs cite these and
do not unfold the loop. -/

namespace Sys2Proof.Machine

/-- The part of the invariant the packing primitives need and keep: an open word with a clear low end, and room
counted. -/
structure Open (depth : Nat) (b : Block) : Prop where
  accClear : lowClear b.fill.toNat b.acc
  fillLe : b.fill.toNat ≤ 31
  countLe : b.wcount ≤ depth

/-- What packing leaves alone: codebase, width, phase, error, duplicate flag, and every word already in `OUT`. -/
structure Kept (b b' : Block) : Prop where
  cb : b'.cb = b.cb
  w : b'.w = b.w
  phase : b'.phase = b.phase
  err : b'.err = b.err
  dup : b'.dup = b.dup
  out : ∃ ws, b'.out = b.out ++ ws

theorem Kept.refl (b : Block) : Kept b b := ⟨rfl, rfl, rfl, rfl, rfl, [], by simp⟩

theorem Kept.trans {a b c : Block} (h : Kept a b) (k : Kept b c) : Kept a c := by
  obtain ⟨xs, hx⟩ := h.out
  obtain ⟨ys, hy⟩ := k.out
  exact ⟨k.cb.trans h.cb, k.w.trans h.w, k.phase.trans h.phase, k.err.trans h.err, k.dup.trans h.dup,
    xs ++ ys, by simp [hx, hy]⟩

theorem Block.Inv.open {depth : Nat} {b : Block} (h : b.Inv depth) : Open depth b :=
  ⟨h.accClear, h.fillLe, h.countLe⟩

/-! `PUSH` -/

theorem pushAndClear_full (depth : Nat) (w : Word) (b : Block) (h : b.wcount = depth) :
    pushAndClear depth w b = .error .outputOverflow := by simp [pushAndClear, push, h]

theorem pushAndClear_room (depth : Nat) (w : Word) (b : Block) (h : b.wcount ≠ depth) :
    pushAndClear depth w b = .ok { b with acc := 0, fill := 0, out := b.out ++ [w] } := by
  simp [pushAndClear, push, h, Block.clearAcc]

/-- A pushed word holds what was open and the chunk that completes it. -/
theorem pushed_stream (b : Block) (w : Word) (bits : List Bool) (hw : wordString w = b.openString ++ bits) :
    ({ b with acc := 0, fill := 0, out := b.out ++ [w] } : Block).stream = b.stream ++ bits := by
  simp [Block.stream, Block.openString, hw]

/-! `APPEND` -/

/-- What a completed append of the bits `bits` did (41_packing.md R72, R76, R77). -/
structure Appended (depth : Nat) (bits : List Bool) (b b' : Block) : Prop where
  still : Open depth b'
  kept : Kept b b'
  stream : b'.stream = b.stream ++ bits

theorem Appended.pos {depth : Nat} {bits : List Bool} {b b' : Block} (h : Appended depth bits b b') :
    b'.pos = b.pos + bits.length := by
  rw [← stream_length, ← stream_length, h.stream, List.length_append]

theorem Appended.refl {depth : Nat} {b : Block} (h : Open depth b) : Appended depth [] b b :=
  ⟨h, Kept.refl b, by simp⟩

theorem Appended.trans {depth : Nat} {xs ys : List Bool} {a b c : Block} (h : Appended depth xs a b)
    (k : Appended depth ys b c) : Appended depth (xs ++ ys) a c :=
  ⟨k.still, h.kept.trans k.kept, by rw [k.stream, h.stream, List.append_assoc]⟩

/-- The word `ACC | chunk` that a chunk of exactly the space left completes. -/
theorem completed_word (depth : Nat) (b : Block) (hb : Open depth b) (chunk : Code)
    (hc : ∀ k, 32 - b.fill.toNat ≤ k → chunk.getLsbD k = false) :
    wordString (b.acc ||| chunk.setWidth 32) = b.openString ++ codeString chunk (32 - b.fill.toNat) := by
  have hf := hb.fillLe
  have h := open_or_chunk b.acc chunk b.fill.toNat (32 - b.fill.toNat) hb.accClear (by omega) hc
  have h1 : b.fill.toNat + (32 - b.fill.toNat) = 32 := by omega
  have h2 : 32 - b.fill.toNat - (32 - b.fill.toNat) = 0 := by omega
  rw [h1, h2] at h
  simpa [wordString, Block.openString] using h

/-- Pushing the completed word. -/
theorem pushAndClear_appended (depth : Nat) (b : Block) (hb : Open depth b) (w : Word) (bits : List Bool)
    (hw : wordString w = b.openString ++ bits) (hroom : b.wcount ≠ depth) :
    ∃ b', pushAndClear depth w b = .ok b' ∧ Appended depth bits b b' ∧ b'.fill = 0 ∧ b'.wcount = b.wcount + 1 := by
  refine ⟨_, pushAndClear_room depth w b hroom, ⟨⟨?_, ?_, ?_⟩, ⟨rfl, rfl, rfl, rfl, rfl, [w], rfl⟩, ?_⟩, rfl, ?_⟩
  · exact lowClear_zero _
  · simp
  · have := hb.countLe
    simp only [Block.wcount, List.length_append, List.length_singleton] at *
    omega
  · exact pushed_stream b w bits hw
  · simp [Block.wcount]

theorem appendLoop_done (depth : Nat) (code : Code) (fuel : Nat) (b : Block) :
    appendLoop depth code fuel 0 b = .ok b := by cases fuel <;> simp [appendLoop]

/-- One pass through the split arm (41_packing.md R72). -/
theorem appendLoop_split (depth : Nat) (code : Code) (fuel rem : Nat) (b : Block) (h : 32 - b.fill.toNat < rem) :
    appendLoop depth code (fuel + 1) rem b =
      match pushAndClear depth (b.acc |||
          ((code >>> (rem - (32 - b.fill.toNat))) &&& ones (32 - b.fill.toNat)).setWidth 32) b with
      | .error f => .error f
      | .ok b' => appendLoop depth code fuel (rem - (32 - b.fill.toNat)) b' := by
  have h0 : rem ≠ 0 := by omega
  exact (if_neg h0).trans (if_pos h)

/-- The last pass, through the arm that fits (41_packing.md R72). -/
theorem appendLoop_fits (depth : Nat) (code : Code) (fuel rem : Nat) (b : Block) (h0 : rem ≠ 0)
    (h : ¬ 32 - b.fill.toNat < rem) :
    appendLoop depth code (fuel + 1) rem b =
      if (b.fill + BitVec.ofNat 6 rem).toNat = 32 then pushAndClear depth
        (b.acc ||| ((code &&& ones rem).setWidth 32 <<< (32 - b.fill.toNat - rem))) b
      else .ok { b with acc := b.acc ||| ((code &&& ones rem).setWidth 32 <<< (32 - b.fill.toNat - rem)),
                        fill := b.fill + BitVec.ofNat 6 rem } := by
  simp only [appendLoop, Config.wordBits, if_neg h0, if_neg h]

/-- The loop from an open word, with enough fuel, `rem` ≤ 64 bits of `code` to go: it completes exactly when the words
it finishes fit the buffer, and then it has appended those bits; where they do not fit it raises `OutputOverflow`. -/
theorem appendLoop_spec (depth : Nat) (code : Code) (fuel rem : Nat) (b : Block) (hb : Open depth b)
    (hfuel : rem ≤ fuel) (hrem : rem ≤ 64) :
    ((b.pos + rem) / 32 ≤ depth →
      ∃ b', appendLoop depth code fuel rem b = .ok b' ∧ Appended depth (codeString code rem) b b') ∧
    (depth < (b.pos + rem) / 32 → appendLoop depth code fuel rem b = .error .outputOverflow) := by
  induction fuel generalizing rem b with
  | zero =>
    have h0 : rem = 0 := by omega
    subst h0
    have hp := hb.fillLe
    have hcount := hb.countLe
    refine ⟨fun _ => ⟨b, rfl, by simpa [codeString] using Appended.refl hb⟩, fun h => ?_⟩
    simp only [Block.pos, Config.wordBits] at h
    omega
  | succ fuel ih =>
    have hf := hb.fillLe
    have hcount := hb.countLe
    by_cases h0 : rem = 0
    · subst h0
      refine ⟨fun _ => ⟨b, appendLoop_done _ _ _ _, by simpa [codeString] using Appended.refl hb⟩, fun h => ?_⟩
      simp only [Block.pos, Config.wordBits] at h
      omega
    by_cases hs : 32 - b.fill.toNat < rem
    · -- the split arm
      have hmask := mask_clear (code >>> (rem - (32 - b.fill.toNat))) (32 - b.fill.toNat) (by omega)
      have hw := completed_word depth b hb _ hmask
      rw [codeString_mask _ _ (by omega)] at hw
      by_cases hfull : b.wcount = depth
      · refine ⟨fun h => ?_, fun _ => ?_⟩
        · simp only [Block.pos, Config.wordBits] at h
          omega
        · rw [appendLoop_split _ _ _ _ _ hs, pushAndClear_full _ _ _ hfull]
      · obtain ⟨b1, he, ha, hfill, hwc⟩ := pushAndClear_appended depth b hb _ _ hw hfull
        have hpos : b1.pos + (rem - (32 - b.fill.toNat)) = b.pos + rem := by
          rw [ha.pos, codeString_length]
          omega
        obtain ⟨ih1, ih2⟩ := ih (rem - (32 - b.fill.toNat)) b1 ha.still (by omega) (by omega)
        rw [hpos] at ih1 ih2
        have hstep : appendLoop depth code (fuel + 1) rem b =
            appendLoop depth code fuel (rem - (32 - b.fill.toNat)) b1 := by
          rw [appendLoop_split _ _ _ _ _ hs, he]
        rw [hstep, codeString_split code rem (32 - b.fill.toNat) (by omega)]
        refine ⟨fun h => ?_, ih2⟩
        obtain ⟨b', he', ha'⟩ := ih1 h
        exact ⟨b', he', ha.trans ha'⟩
    · -- the arm that fits
      have hmask := mask_clear code rem hrem
      have hstr := open_or_chunk b.acc (code &&& ones rem) b.fill.toNat rem hb.accClear (by omega) hmask
      rw [codeString_mask _ _ hrem] at hstr
      have hfill : (b.fill + BitVec.ofNat 6 rem).toNat = b.fill.toNat + rem := by
        rw [BitVec.toNat_add, BitVec.toNat_ofNat]
        omega
      by_cases hx : b.fill.toNat + rem = 32
      · have hx' : (b.fill + BitVec.ofNat 6 rem).toNat = 32 := hfill.trans hx
        have hw : wordString (b.acc ||| ((code &&& ones rem).setWidth 32 <<< (32 - b.fill.toNat - rem))) =
            b.openString ++ codeString code rem := by
          rw [hx] at hstr
          exact hstr
        have hstep : appendLoop depth code (fuel + 1) rem b = pushAndClear depth
            (b.acc ||| ((code &&& ones rem).setWidth 32 <<< (32 - b.fill.toNat - rem))) b := by
          rw [appendLoop_fits _ _ _ _ _ h0 hs, if_pos hx']
        rw [hstep]
        by_cases hfull : b.wcount = depth
        · refine ⟨fun h => ?_, fun _ => pushAndClear_full _ _ _ hfull⟩
          simp only [Block.pos, Config.wordBits] at h
          omega
        · obtain ⟨b1, he, ha, _, _⟩ := pushAndClear_appended depth b hb _ _ hw hfull
          refine ⟨fun _ => ⟨b1, he, ha⟩, fun h => ?_⟩
          simp only [Block.pos, Config.wordBits] at h
          omega
      · have hx' : (b.fill + BitVec.ofNat 6 rem).toNat ≠ 32 := fun h => hx (hfill.symm.trans h)
        refine ⟨fun _ => ⟨{ b with
            acc := b.acc ||| ((code &&& ones rem).setWidth 32 <<< (32 - b.fill.toNat - rem)),
            fill := b.fill + BitVec.ofNat 6 rem },
          by rw [appendLoop_fits _ _ _ _ _ h0 hs, if_neg hx'], ⟨⟨?_, ?_, hcount⟩, ?_, ?_⟩⟩, fun h => ?_⟩
        · simp only [hfill]
          exact lowClear_or_chunk _ _ _ _ hb.accClear
        · simp only [hfill]
          omega
        · exact ⟨rfl, rfl, rfl, rfl, rfl, [], by simp⟩
        · simp only [Block.stream, Block.openString, hfill, hstr, List.append_assoc]
        · simp only [Block.pos, Config.wordBits] at h
          omega

/-- `APPEND` of an entry of at most 64 bits: it completes exactly when the words it finishes fit the buffer
(41_packing.md R72, R76). -/
theorem append_ok (depth : Nat) (e : CodeEntry) (b : Block) (hb : Open depth b) (he : e.len.toNat ≤ 64)
    (hroom : (b.pos + e.len.toNat) / 32 ≤ depth) :
    ∃ b', append depth e b = .ok b' ∧ Appended depth e.string b b' :=
  (appendLoop_spec depth e.code _ _ b hb (Nat.le_succ _) he).1 hroom

/-- `APPEND` whose words do not fit raises `OutputOverflow` (41_packing.md R71). -/
theorem append_overflow (depth : Nat) (e : CodeEntry) (b : Block) (hb : Open depth b) (he : e.len.toNat ≤ 64)
    (hroom : depth < (b.pos + e.len.toNat) / 32) : append depth e b = .error .outputOverflow :=
  (appendLoop_spec depth e.code _ _ b hb (Nat.le_succ _) he).2 hroom

/-- The only fault `APPEND` raises, in any state. -/
theorem appendLoop_error (depth : Nat) (code : Code) (fuel rem : Nat) (b : Block) (f : ErrorCode)
    (h : appendLoop depth code fuel rem b = .error f) : f = .outputOverflow := by
  induction fuel generalizing rem b with
  | zero => simp [appendLoop] at h
  | succ fuel ih =>
    by_cases hfull : b.wcount = depth
    · simp only [appendLoop, pushAndClear_full _ _ _ hfull] at h
      split at h
      · cases h
      · split at h
        · exact (Except.error.inj h).symm
        · split at h
          · exact (Except.error.inj h).symm
          · cases h
    · simp only [appendLoop, pushAndClear_room _ _ _ hfull] at h
      split at h
      · cases h
      · split at h
        · exact ih _ _ h
        · split at h <;> cases h

theorem pushAndClear_kept (depth : Nat) (w : Word) (b b' : Block) (h : pushAndClear depth w b = .ok b') :
    Kept b b' := by
  by_cases hfull : b.wcount = depth
  · rw [pushAndClear_full _ _ _ hfull] at h; cases h
  · rw [pushAndClear_room _ _ _ hfull] at h
    cases h
    exact ⟨rfl, rfl, rfl, rfl, rfl, [w], rfl⟩

/-- What `APPEND` leaves alone, in any state. -/
theorem appendLoop_kept (depth : Nat) (code : Code) (fuel rem : Nat) (b b' : Block)
    (h : appendLoop depth code fuel rem b = .ok b') : Kept b b' := by
  induction fuel generalizing rem b with
  | zero => cases h; exact Kept.refl _
  | succ fuel ih =>
    by_cases h0 : rem = 0
    · subst h0
      rw [appendLoop_done] at h
      cases h
      exact Kept.refl _
    by_cases hs : 32 - b.fill.toNat < rem
    · rw [appendLoop_split _ _ _ _ _ hs] at h
      split at h
      · cases h
      · exact (pushAndClear_kept _ _ _ _ ‹_›).trans (ih _ _ h)
    · rw [appendLoop_fits _ _ _ _ _ h0 hs] at h
      split at h
      · exact pushAndClear_kept _ _ _ _ h
      · cases h
        exact ⟨rfl, rfl, rfl, rfl, rfl, [], by simp⟩

/-! `PACKUNIT` -/

theorem packUnit_missing (depth : Nat) (u : Byte) (b : Block) (h : Codebase.lookup b.cb u = none) :
    packUnit depth u b = .error .codebaseMissingEntry := by simp [packUnit, h]

theorem packUnit_found (depth : Nat) (u : Byte) (b : Block) (e : CodeEntry) (h : Codebase.lookup b.cb u = some e) :
    packUnit depth u b = append depth e b := by simp [packUnit, h]

theorem unitString_found (cb : Codebase) (u : Byte) (e : CodeEntry) (h : Codebase.lookup cb u = some e) :
    unitString cb u = e.string := by simp [unitString, h]

/-- A packed unit had an entry, and its string was appended (41_packing.md R70, R76). -/
theorem packUnit_ok (depth : Nat) (u : Byte) (b b' : Block) (hb : Open depth b)
    (hcb : ∀ v e, Codebase.lookup b.cb v = some e → e.wf) (h : packUnit depth u b = .ok b') :
    ∃ e, Codebase.lookup b.cb u = some e ∧ Appended depth (unitString b.cb u) b b' := by
  cases hl : Codebase.lookup b.cb u with
  | none => rw [packUnit_missing _ _ _ hl] at h; cases h
  | some e =>
    refine ⟨e, rfl, ?_⟩
    rw [packUnit_found _ _ _ _ hl] at h
    rw [unitString_found _ _ _ hl]
    have hle := (hcb u e hl).lenLe
    by_cases hroom : (b.pos + e.len.toNat) / 32 ≤ depth
    · obtain ⟨b1, h1, ha⟩ := append_ok depth e b hb hle hroom
      rw [h1] at h
      cases h
      exact ha
    · rw [append_overflow depth e b hb hle (by omega)] at h
      cases h

/-- The faults of `PACKUNIT`, in any state. -/
theorem packUnit_error (depth : Nat) (u : Byte) (b : Block) (f : ErrorCode) (h : packUnit depth u b = .error f) :
    f = .codebaseMissingEntry ∨ f = .outputOverflow := by
  cases hl : Codebase.lookup b.cb u with
  | none => rw [packUnit_missing _ _ _ hl] at h; exact .inl (Except.error.inj h).symm
  | some e =>
    rw [packUnit_found _ _ _ _ hl] at h
    exact .inr (appendLoop_error _ _ _ _ _ _ h)

/-- What `PACKUNIT` leaves alone, in any state. -/
theorem packUnit_kept (depth : Nat) (u : Byte) (b b' : Block) (h : packUnit depth u b = .ok b') : Kept b b' := by
  cases hl : Codebase.lookup b.cb u with
  | none => rw [packUnit_missing _ _ _ hl] at h; cases h
  | some e =>
    rw [packUnit_found _ _ _ _ hl] at h
    exact appendLoop_kept _ _ _ _ _ _ h

/-- What packing several units leaves alone, in any state. -/
theorem packUnits_kept (depth : Nat) (us : List Byte) (b b' : Block) (h : packUnits depth us b = .ok b') :
    Kept b b' := by
  induction us generalizing b with
  | nil => cases h; exact Kept.refl _
  | cons u us ih =>
    cases h1 : packUnit depth u b with
    | error f => simp [packUnits, h1] at h
    | ok b1 =>
      simp only [packUnits, h1] at h
      exact (packUnit_kept _ _ _ _ h1).trans (ih _ h)

/-- Packed units had entries, and their strings were appended in order (41_packing.md R74, R76). -/
theorem packUnits_ok (depth : Nat) (us : List Byte) (b b' : Block) (hb : Open depth b)
    (hcb : ∀ v e, Codebase.lookup b.cb v = some e → e.wf) (h : packUnits depth us b = .ok b') :
    (∀ u ∈ us, ∃ e, Codebase.lookup b.cb u = some e) ∧ Appended depth (unitsString b.cb us) b b' := by
  induction us generalizing b with
  | nil =>
    cases h
    exact ⟨by simp, by simpa [unitsString] using Appended.refl hb⟩
  | cons u us ih =>
    cases h1 : packUnit depth u b with
    | error f => simp [packUnits, h1] at h
    | ok b1 =>
      simp only [packUnits, h1] at h
      obtain ⟨e, hl, ha⟩ := packUnit_ok depth u b b1 hb hcb h1
      obtain ⟨hall, ha2⟩ := ih b1 ha.still (by rw [ha.kept.cb]; exact hcb) h
      rw [ha.kept.cb] at hall ha2
      refine ⟨?_, ?_⟩
      · intro v hv
        rcases List.mem_cons.mp hv with rfl | hv
        · exact ⟨e, hl⟩
        · exact hall v hv
      · have : unitsString b.cb (u :: us) = unitString b.cb u ++ unitsString b.cb us := by simp [unitsString]
        rw [this]
        exact ha.trans ha2

/-- The faults of packing several units, in any state. -/
theorem packUnits_error (depth : Nat) (us : List Byte) (b : Block) (f : ErrorCode)
    (h : packUnits depth us b = .error f) : f = .codebaseMissingEntry ∨ f = .outputOverflow := by
  induction us generalizing b with
  | nil => cases h
  | cons u us ih =>
    cases h1 : packUnit depth u b with
    | error g =>
      simp only [packUnits, h1] at h
      cases h
      exact packUnit_error _ _ _ _ h1
    | ok b1 =>
      simp only [packUnits, h1] at h
      exact ih b1 h

/-! Packing reads and writes `ACC`, `FILL` and `OUT` alone, so it does the same in a block whose other elements differ. -/

/-- `b` with the packing elements of `c`. -/
def graft (b c : Block) : Block := { b with acc := c.acc, fill := c.fill, out := c.out }

/-- `graft b` on the block of a completed primitive. -/
def graftResult (b : Block) : Except ErrorCode Block → Except ErrorCode Block
  | .ok c => .ok (graft b c)
  | .error f => .error f

theorem graft_kept (b c : Block) (h : Kept b c) : graft b c = c := by
  obtain ⟨cb, w, acc, fill, out, phase, err, dup⟩ := c
  obtain ⟨h1, h2, h3, h4, h5, -⟩ := h
  simp only at h1 h2 h3 h4 h5
  simp [graft, h1, h2, h3, h4, h5]

theorem pushAndClear_graft (depth : Nat) (w : Word) (b c : Block) :
    pushAndClear depth w (graft b c) = graftResult b (pushAndClear depth w c) := by
  by_cases hfull : c.wcount = depth
  · rw [pushAndClear_full _ _ _ hfull, pushAndClear_full depth w (graft b c) hfull]
    rfl
  · rw [pushAndClear_room _ _ _ hfull, pushAndClear_room depth w (graft b c) hfull]
    rfl

theorem appendLoop_graft (depth : Nat) (code : Code) (fuel rem : Nat) (b c : Block) :
    appendLoop depth code fuel rem (graft b c) = graftResult b (appendLoop depth code fuel rem c) := by
  induction fuel generalizing rem c with
  | zero => rfl
  | succ fuel ih =>
    by_cases h0 : rem = 0
    · subst h0
      rw [appendLoop_done, appendLoop_done]
      rfl
    by_cases hs : 32 - c.fill.toNat < rem
    · rw [appendLoop_split _ _ _ _ _ hs, appendLoop_split _ _ _ _ (graft b c) hs, pushAndClear_graft]
      simp only [graft]
      cases pushAndClear depth (c.acc |||
          ((code >>> (rem - (32 - c.fill.toNat))) &&& ones (32 - c.fill.toNat)).setWidth 32) c with
      | error f => rfl
      | ok c' => exact ih _ c'
    · rw [appendLoop_fits _ _ _ _ _ h0 hs, appendLoop_fits _ _ _ _ (graft b c) h0 hs]
      by_cases hx : (c.fill + BitVec.ofNat 6 rem).toNat = 32
      · have hg : ((graft b c).fill + BitVec.ofNat 6 rem).toNat = 32 := hx
        rw [if_pos hx, if_pos hg]
        exact pushAndClear_graft _ _ _ _
      · have hg : ((graft b c).fill + BitVec.ofNat 6 rem).toNat ≠ 32 := hx
        rw [if_neg hx, if_neg hg]
        rfl

/-- A packed unit packs alike in a block with the same entry for it. -/
theorem packUnit_graft (depth : Nat) (u : Byte) (b c : Block)
    (h : Codebase.lookup b.cb u = Codebase.lookup c.cb u) :
    packUnit depth u (graft b c) = graftResult b (packUnit depth u c) := by
  have hg : Codebase.lookup (graft b c).cb u = Codebase.lookup c.cb u := h
  cases hl : Codebase.lookup c.cb u with
  | none =>
    rw [packUnit_missing _ _ _ hl, packUnit_missing _ _ _ (hg.trans hl)]
    rfl
  | some e =>
    rw [packUnit_found _ _ _ _ hl, packUnit_found _ _ _ _ (hg.trans hl)]
    exact appendLoop_graft _ _ _ _ _ _

/-- Packed units pack alike in a block with the same entries for them. -/
theorem packUnits_graft (depth : Nat) (us : List Byte) (b c : Block)
    (h : ∀ u ∈ us, Codebase.lookup b.cb u = Codebase.lookup c.cb u) :
    packUnits depth us (graft b c) = graftResult b (packUnits depth us c) := by
  induction us generalizing c with
  | nil => rfl
  | cons u us ih =>
    simp only [packUnits, packUnit_graft depth u b c (h u (by simp))]
    cases h1 : packUnit depth u c with
    | error f => rfl
    | ok c' =>
      have hk := packUnit_kept _ _ _ _ h1
      exact ih c' fun v hv => by rw [hk.cb]; exact h v (by simp [hv])

/-! The flush of `END` -/

/-- What the flush did where it completed: the zero-fill, and no open bit (41_packing.md R75). -/
structure Flushed (depth : Nat) (b b' : Block) : Prop where
  still : Open depth b'
  kept : Kept b b'
  closed : b'.fill = 0 ∧ b'.acc = 0
  stream : b'.stream = b.stream ++ List.replicate (32 * b'.wcount - b.pos) false
  count : b'.wcount = (b.pos + 31) / 32

/-- The word under construction ends in the zero-fill. -/
theorem acc_string (depth : Nat) (b : Block) (hb : Open depth b) :
    wordString b.acc = b.openString ++ List.replicate (32 - b.fill.toNat) false := by
  have hf := hb.fillLe
  apply List.ext_getElem
  · simp; omega
  · intro k hk _
    simp only [wordString_length] at hk
    by_cases h : k < b.fill.toNat
    · rw [List.getElem_append_left (by simpa using h)]
      simp [wordString, Block.openString]
    · rw [List.getElem_append_right (by simpa using h)]
      have := hb.accClear.bit (31 - k) (by omega)
      simp [wordString, BitVec.getMsbD, hk, this]

theorem flush_ok (depth : Nat) (b b' : Block) (hb : Open depth b) (hz : b.fill = 0 → b.acc = 0)
    (h : flush depth b = .ok b') : Flushed depth b b' := by
  have hf := hb.fillLe
  by_cases h0 : 0 < b.fill.toNat
  · by_cases hfull : b.wcount = depth
    · simp [flush, h0, pushAndClear_full _ _ _ hfull] at h
    · obtain ⟨b1, he, ha, _, hwc⟩ := pushAndClear_appended depth b hb _ _ (acc_string depth b hb) hfull
      rw [pushAndClear_room _ _ _ hfull] at he
      simp only [flush, h0, if_true, pushAndClear_room _ _ _ hfull] at h
      cases h
      cases he
      refine ⟨ha.still, ha.kept, ⟨rfl, rfl⟩, ?_, ?_⟩
      · rw [ha.stream, hwc]
        congr 2
        simp only [Block.pos, Config.wordBits]
        omega
      · rw [hwc]
        simp only [Block.pos, Config.wordBits]
        omega
  · have hfz : b.fill = 0 := BitVec.eq_of_toNat_eq (by simp; omega)
    simp only [flush, h0, if_false] at h
    cases h
    refine ⟨hb, Kept.refl b, ⟨hfz, hz hfz⟩, ?_, ?_⟩
    · simp [Block.pos, hfz]
    · simp only [Block.pos, Config.wordBits]
      omega

/-- What the flush leaves alone, in any state. -/
theorem flush_kept (depth : Nat) (b b' : Block) (h : flush depth b = .ok b') : Kept b b' := by
  by_cases h0 : 0 < b.fill.toNat
  · simp only [flush, h0, if_true] at h
    exact pushAndClear_kept _ _ _ _ h
  · simp only [flush, h0, if_false] at h
    cases h
    exact Kept.refl _

theorem flush_error (depth : Nat) (b : Block) (f : ErrorCode) (h : flush depth b = .error f) :
    f = .outputOverflow ∧ 0 < b.fill.toNat ∧ b.wcount = depth := by
  by_cases h0 : 0 < b.fill.toNat
  · by_cases hfull : b.wcount = depth
    · rw [flush, if_pos h0, pushAndClear_full _ _ _ hfull] at h
      exact ⟨(Except.error.inj h).symm, h0, hfull⟩
    · rw [flush, if_pos h0, pushAndClear_room _ _ _ hfull] at h
      cases h
  · simp [flush, h0] at h

/-- The flush completes exactly when it has no word to push or room for one (41_packing.md R75). -/
theorem flush_room (depth : Nat) (b : Block) (h : b.fill.toNat = 0 ∨ b.wcount ≠ depth) :
    ∃ b', flush depth b = .ok b' := by
  by_cases h0 : 0 < b.fill.toNat
  · have hn : b.wcount ≠ depth := by omega
    exact ⟨_, by simp only [flush, h0, if_true]; exact pushAndClear_room _ _ _ hn⟩
  · exact ⟨b, by simp [flush, h0]⟩

theorem flush_overflow (depth : Nat) (b : Block) (h : 0 < b.fill.toNat) (hn : b.wcount = depth) :
    flush depth b = .error .outputOverflow := by
  simp [flush, h, pushAndClear_full _ _ _ hn]

end Sys2Proof.Machine
end

