-- ==== Sys2Proof/Laws/Encoding.lean ====
section
/-! SUPPORT. The fields of a packed command, and a command from its fields. -/

namespace Sys2Proof

/-- Each bit of a packed command, by the field it lies in (30_encoding.md R50). -/
theorem packFields_getLsbD (op : BitVec 4) (a l : Byte) (d : Code) (k : Nat) :
    (packFields op a l d).getLsbD k =
      if k < 64 then d.getLsbD k else if k < 72 then l.getLsbD (k - 64) else if k < 80 then a.getLsbD (k - 72)
      else if k < 92 then false else op.getLsbD (k - 92) := by
  have h1 := BitVec.getLsbD_append (x := op ++ (0 : BitVec 12) ++ a ++ l) (y := d) (i := k)
  have h2 := BitVec.getLsbD_append (x := op ++ (0 : BitVec 12) ++ a) (y := l) (i := k - 64)
  have h3 := BitVec.getLsbD_append (x := op ++ (0 : BitVec 12)) (y := a) (i := k - 64 - 8)
  have h4 := BitVec.getLsbD_append (x := op) (y := (0 : BitVec 12)) (i := k - 64 - 8 - 8)
  refine h1.trans ?_
  rw [h2, h3, h4]
  have e1 : k - 64 < 8 ↔ k < 64 + 8 := by omega
  have e2 : k - 64 - 8 < 8 ↔ k < 64 + 8 + 8 := by omega
  have e3 : k - 64 - 8 - 8 < 12 ↔ k < 64 + 8 + 8 + 12 := by omega
  have e4 : k - 64 - 8 = k - 72 := by omega
  have e5 : k - 64 - 8 - 8 - 12 = k - 92 := by omega
  simp only [Nat.sub_sub, Nat.reduceAdd] at *
  by_cases c1 : k < 64
  · simp [c1]
  by_cases c2 : k < 72
  · simp [c1, c2, e1]
  by_cases c3 : k < 80
  · simp [c1, c2, c3, e1, e2]
  by_cases c4 : k < 92
  · simp [c1, c2, c3, c4, e1, e2, e3]
  · simp [c1, c2, c3, c4, e1, e2, e3]

@[simp] theorem opField_packFields (op : BitVec 4) (a l : Byte) (d : Code) : opField (packFields op a l d) = op := by
  apply BitVec.eq_of_getLsbD_eq
  intro k hk
  have h1 : ¬ 92 + k < 64 := by omega
  have h2 : ¬ 92 + k < 72 := by omega
  have h3 : ¬ 92 + k < 80 := by omega
  have h4 : ¬ 92 + k < 92 := by omega
  simp only [opField, BitVec.getLsbD_extractLsb', packFields_getLsbD, hk, h1, h2, h3, h4, if_false,
    decide_true, Bool.true_and, Nat.add_sub_cancel_left]

@[simp] theorem rsvField_packFields (op : BitVec 4) (a l : Byte) (d : Code) :
    rsvField (packFields op a l d) = 0 := by
  apply BitVec.eq_of_getLsbD_eq
  intro k hk
  have h1 : ¬ 80 + k < 64 := by omega
  have h2 : ¬ 80 + k < 72 := by omega
  have h3 : ¬ 80 + k < 80 := by omega
  have h4 : 80 + k < 92 := by omega
  simp [rsvField, BitVec.getLsbD_extractLsb', packFields_getLsbD, h1, h2, h3, h4]

@[simp] theorem aField_packFields (op : BitVec 4) (a l : Byte) (d : Code) : aField (packFields op a l d) = a := by
  apply BitVec.eq_of_getLsbD_eq
  intro k (hk : k < 8)
  have h1 : ¬ 72 + k < 64 := by omega
  have h2 : ¬ 72 + k < 72 := by omega
  have h3 : 72 + k < 80 := by omega
  simp only [aField, BitVec.getLsbD_extractLsb', packFields_getLsbD, hk, h1, h2, h3, if_false, if_true,
    decide_true, Bool.true_and, Nat.add_sub_cancel_left]

@[simp] theorem lField_packFields (op : BitVec 4) (a l : Byte) (d : Code) : lField (packFields op a l d) = l := by
  apply BitVec.eq_of_getLsbD_eq
  intro k (hk : k < 8)
  have h1 : ¬ 64 + k < 64 := by omega
  have h2 : 64 + k < 72 := by omega
  simp only [lField, BitVec.getLsbD_extractLsb', packFields_getLsbD, hk, h1, h2, if_false, if_true,
    decide_true, Bool.true_and, Nat.add_sub_cancel_left]

@[simp] theorem dField_packFields (op : BitVec 4) (a l : Byte) (d : Code) : dField (packFields op a l d) = d := by
  apply BitVec.eq_of_getLsbD_eq
  intro k (hk : k < 64)
  simp only [dField, BitVec.getLsbD_extractLsb', packFields_getLsbD, hk, Nat.zero_add, if_true, decide_true,
    Bool.true_and]

@[simp] theorem dHighField_packFields (op : BitVec 4) (a l : Byte) (h i : BitVec 32) :
    dHighField (packFields op a l (h ++ i)) = h := by
  apply BitVec.eq_of_getLsbD_eq
  intro k hk
  have h1 : 32 + k < 64 := by omega
  have h2 : ¬ 32 + k < 32 := by omega
  simp only [dHighField, BitVec.getLsbD_extractLsb', packFields_getLsbD, BitVec.getLsbD_append, hk, h1, h2, if_true,
    if_false, decide_true, Bool.true_and, Nat.add_sub_cancel_left]

@[simp] theorem idxField_packFields (op : BitVec 4) (a l : Byte) (h i : BitVec 32) :
    idxField (packFields op a l (h ++ i)) = i := by
  apply BitVec.eq_of_getLsbD_eq
  intro k (hk : k < 32)
  have h1 : k < 64 := by omega
  simp only [idxField, BitVec.getLsbD_extractLsb', packFields_getLsbD, BitVec.getLsbD_append, hk, h1, if_true,
    decide_true, Bool.true_and, Nat.zero_add]

/-- A command whose reserved field is zero is its fields packed. -/
theorem packFields_fields (c : Cmd) (h : rsvField c = 0) :
    packFields (opField c) (aField c) (lField c) (dField c) = c := by
  apply BitVec.eq_of_getLsbD_eq
  intro k (hk : k < 96)
  have hr : 80 ≤ k → k < 92 → c.getLsbD k = false := by
    intro h1 h2
    have h3 : (rsvField c).getLsbD (k - 80) = false := by rw [h]; simp
    have h4 : k - 80 < 12 := by omega
    have h5 : 80 + (k - 80) = k := by omega
    simpa only [rsvField, BitVec.getLsbD_extractLsb', h4, h5, decide_true, Bool.true_and] using h3
  rw [packFields_getLsbD]
  by_cases c1 : k < 64
  · simp only [if_true, dField, BitVec.getLsbD_extractLsb', c1, Nat.zero_add, decide_true, Bool.true_and]
  by_cases c2 : k < 72
  · have h1 : k - 64 < 8 := by omega
    have h2 : 64 + (k - 64) = k := by omega
    simp only [if_neg c1, if_pos c2, lField, BitVec.getLsbD_extractLsb', h1, h2, decide_true, Bool.true_and]
  by_cases c3 : k < 80
  · have h1 : k - 72 < 8 := by omega
    have h2 : 72 + (k - 72) = k := by omega
    simp only [if_neg c1, if_neg c2, if_pos c3, aField, BitVec.getLsbD_extractLsb', h1, h2, decide_true,
      Bool.true_and]
  by_cases c4 : k < 92
  · simp only [if_neg c1, if_neg c2, if_neg c3, if_pos c4, hr (by omega) c4]
  · have h1 : k - 92 < 4 := by omega
    have h2 : 92 + (k - 92) = k := by omega
    simp only [if_neg c1, if_neg c2, if_neg c3, if_neg c4, opField, BitVec.getLsbD_extractLsb', h1, h2, decide_true,
      Bool.true_and]

/-- The data word is its two halves. -/
theorem dField_halves (c : Cmd) : dField c = dHighField c ++ idxField c := by
  apply BitVec.eq_of_getLsbD_eq
  intro k (hk : k < 64)
  rw [BitVec.getLsbD_append]
  by_cases h : k < 32
  · simp [dField, idxField, h, hk]
  · have h1 : k - 32 < 32 := by omega
    have h2 : 32 + (k - 32) = k := by omega
    simp [dField, dHighField, h, hk, h1, h2]

/-- A bit of a field is the bit of the command where the field stands. -/
theorem field_bit (c : Cmd) (lo width k : Nat) (h1 : lo ≤ k) (h2 : k < lo + width) :
    (c.extractLsb' lo width).getLsbD (k - lo) = c.getLsbD k := by
  have h3 : k - lo < width := by omega
  have h4 : lo + (k - lo) = k := by omega
  simp only [BitVec.getLsbD_extractLsb', h3, h4, decide_true, Bool.true_and]

/-- Two commands with the same five fields are the same command. -/
theorem cmd_ext (c d : Cmd) (h1 : opField c = opField d) (h2 : rsvField c = rsvField d) (h3 : aField c = aField d)
    (h4 : lField c = lField d) (h5 : dField c = dField d) : c = d := by
  apply BitVec.eq_of_getLsbD_eq
  intro k hk
  by_cases c1 : k < 64
  · rw [← field_bit c 0 64 k (by omega) (by omega), ← field_bit d 0 64 k (by omega) (by omega)]
    exact congrArg (fun x : Code => x.getLsbD (k - 0)) h5
  by_cases c2 : k < 72
  · rw [← field_bit c 64 8 k (by omega) (by omega), ← field_bit d 64 8 k (by omega) (by omega)]
    exact congrArg (fun x : Byte => x.getLsbD (k - 64)) h4
  by_cases c3 : k < 80
  · rw [← field_bit c 72 8 k (by omega) (by omega), ← field_bit d 72 8 k (by omega) (by omega)]
    exact congrArg (fun x : Byte => x.getLsbD (k - 72)) h3
  by_cases c4 : k < 92
  · rw [← field_bit c 80 12 k (by omega) (by omega), ← field_bit d 80 12 k (by omega) (by omega)]
    exact congrArg (fun x : BitVec 12 => x.getLsbD (k - 80)) h2
  · rw [← field_bit c 92 4 k (by omega) (by omega), ← field_bit d 92 4 k (by omega) (by omega)]
    exact congrArg (fun x : BitVec 4 => x.getLsbD (k - 92)) h1

/-- A masked command is a pattern exactly when each masked field is. -/
theorem masked_iff_fields (c m p : Cmd) :
    c &&& m = p ↔ opField c &&& opField m = opField p ∧ rsvField c &&& rsvField m = rsvField p ∧
      aField c &&& aField m = aField p ∧ lField c &&& lField m = lField p ∧ dField c &&& dField m = dField p := by
  refine ⟨?_, fun ⟨h1, h2, h3, h4, h5⟩ => ?_⟩
  · rintro rfl
    simp only [opField, rsvField, aField, lField, dField, BitVec.extractLsb'_and, and_self]
  · apply cmd_ext
    · rw [← h1]; simp only [opField, BitVec.extractLsb'_and]
    · rw [← h2]; simp only [rsvField, BitVec.extractLsb'_and]
    · rw [← h3]; simp only [aField, BitVec.extractLsb'_and]
    · rw [← h4]; simp only [lField, BitVec.extractLsb'_and]
    · rw [← h5]; simp only [dField, BitVec.extractLsb'_and]

end Sys2Proof
end

