-- ==== Sys2Proof/Laws/Exec.lean ====
section
/-! SUPPORT. The frame every command runs in, and each meaning as a way to end: what later proofs split on. -/

namespace Sys2Proof.Machine

theorem underFrame_legal (s : State) (legal : List Phase) (r : Result) (h : s.blk.phase ∈ legal) :
    s.underFrame legal r = s.finish r := by simp [State.underFrame, h]

theorem underFrame_illegal (s : State) (legal : List Phase) (r : Result) (h : s.blk.phase ∉ legal) :
    s.underFrame legal r = .next { s with resp := some .no } := by simp [State.underFrame, h, finish_refused]

theorem mem_everyPhase (p : Phase) : p ∈ everyPhase := by cases p <;> simp [everyPhase]

theorem underFrame_every (s : State) (r : Result) : s.underFrame everyPhase r = s.finish r :=
  underFrame_legal _ _ _ (mem_everyPhase _)

/-- The three ways the frame ends (60_exceptions.md R90). -/
theorem underFrame_cases (s : State) (legal : List Phase) (r : Result) :
    (s.blk.phase ∉ legal ∧ s.underFrame legal r = .next { s with resp := some .no }) ∨
    (s.blk.phase ∈ legal ∧ r = .refused ∧ s.underFrame legal r = .next { s with resp := some .no }) ∨
    (s.blk.phase ∈ legal ∧ ∃ f, r = .raised f ∧
      s.underFrame legal r = .next { s with blk := s.blk.raise f, resp := some .no }) ∨
    (s.blk.phase ∈ legal ∧ ∃ b d, r = .performed b d ∧
      s.underFrame legal r = .next { s with blk := b, resp := some (.yes d) }) := by
  by_cases h : s.blk.phase ∈ legal
  · rw [underFrame_legal _ _ _ h]
    cases r with
    | performed b d => exact .inr (.inr (.inr ⟨h, b, d, rfl, rfl⟩))
    | refused => exact .inr (.inl ⟨h, rfl, rfl⟩)
    | raised f => exact .inr (.inr (.inl ⟨h, f, rfl, rfl⟩))
  · exact .inl ⟨h, underFrame_illegal _ _ _ h⟩

/-- The phases in which a command is legal, as the frame reads them (10_state.md R20). -/
def legalPhases : Instr → List Phase
  | .clr => everyPhase
  | .cfg _ => [.load]
  | .ldcode _ _ _ => [.load]
  | .putu _ => [.load, .pack]
  | .putb _ => [.load, .pack]
  | .endStream => [.load, .pack]
  | .rdst => everyPhase
  | .rderr => everyPhase
  | .rdcnt => everyPhase
  | .rdw _ => [.done]

/-- How a command ends in a phase in which it is legal. -/
def resultOf (s : State) : Instr → Result
  | .clr => .performed s.blk.clear 0
  | .cfg a =>
    if a.toNat ∈ Config.unitWidths then .performed { s.blk with w := widthOperand a } 0
    else .raised .unsupportedFeature
  | .ldcode a l d =>
    if l.toNat = 0 then .raised .badTreeGiven
    else if l.toNat > Config.maxLen then .raised .maxCodeLengthReached
    else if (Codebase.lookup s.blk.cb a).isSome then .performed { s.blk with dup := true } 0
    else .performed { s.blk with cb := Codebase.store s.blk.cb a (entryOperand l d) } 0
  | .putu a => packed (packUnits s.params.outDepth [unitOf s.blk.w a] s.blk)
  | .putb a => packed (packUnits s.params.outDepth (byteUnits s.blk.w a) s.blk)
  | .endStream => closed (flush s.params.outDepth s.blk)
  | .rdst => .performed s.blk s.blk.statusWord
  | .rderr => .performed s.blk s.blk.errWord
  | .rdcnt => .performed s.blk s.blk.countWord
  | .rdw i =>
    match s.blk.wordAt i with
    | some w => .performed s.blk w
    | none => .refused

/-- A packing command that ends performed packed its units and entered PACK. -/
theorem packed_performed (x : Except ErrorCode Block) (b : Block) (d : Word) (h : packed x = .performed b d) :
    ∃ b', x = .ok b' ∧ b = { b' with phase := .pack } ∧ d = 0 := by
  cases x with
  | ok b' => cases h; exact ⟨b', rfl, rfl, rfl⟩
  | error f => cases h

theorem packed_raised (x : Except ErrorCode Block) (f : ErrorCode) (h : packed x = .raised f) : x = .error f := by
  cases x with
  | ok b' => cases h
  | error g => cases h; rfl

theorem packed_ne_refused (x : Except ErrorCode Block) : packed x ≠ .refused := by
  cases x <;> (intro h; cases h)

theorem closed_performed (x : Except ErrorCode Block) (b : Block) (d : Word) (h : closed x = .performed b d) :
    ∃ b', x = .ok b' ∧ b = { b' with phase := .done } ∧ d = b'.countWord := by
  cases x with
  | ok b' => cases h; exact ⟨b', rfl, rfl, rfl⟩
  | error f => cases h

theorem closed_raised (x : Except ErrorCode Block) (f : ErrorCode) (h : closed x = .raised f) : x = .error f := by
  cases x with
  | ok b' => cases h
  | error g => cases h; rfl

theorem closed_ne_refused (x : Except ErrorCode Block) : closed x ≠ .refused := by
  cases x <;> (intro h; cases h)

/-- `PUTU` packs the one unit of its operand. -/
theorem packUnit_eq_packUnits (depth : Nat) (u : Byte) (b : Block) : packUnit depth u b = packUnits depth [u] b := by
  cases h : packUnit depth u b <;> simp [packUnits, h]

/-- Every command is its result under the frame. -/
theorem exec_eq (i : Instr) (s : State) : exec i s = s.underFrame (legalPhases i) (resultOf s i) := by
  cases i with
  | putu a => simp only [exec, execPutu, legalPhases, resultOf, packUnit_eq_packUnits]
  | _ => rfl

/-- What a command that answers a next state did: refused, faulted or performed (60_exceptions.md R90). -/
theorem exec_cases (i : Instr) (s t : State) (h : exec i s = .next t) :
    (t = { s with resp := some .no } ∧ (s.blk.phase ∉ legalPhases i ∨ resultOf s i = .refused)) ∨
    (s.blk.phase ∈ legalPhases i ∧ ∃ f, resultOf s i = .raised f ∧
      t = { s with blk := s.blk.raise f, resp := some .no }) ∨
    (s.blk.phase ∈ legalPhases i ∧ ∃ b d, resultOf s i = .performed b d ∧
      t = { s with blk := b, resp := some (.yes d) }) := by
  rw [exec_eq] at h
  rcases underFrame_cases s (legalPhases i) (resultOf s i) with
    ⟨hl, he⟩ | ⟨hl, hr, he⟩ | ⟨hl, f, hr, he⟩ | ⟨hl, b, d, hr, he⟩ <;> rw [he] at h <;> cases h
  · exact .inl ⟨rfl, .inl hl⟩
  · exact .inl ⟨rfl, .inr hr⟩
  · exact .inr (.inl ⟨hl, f, hr, rfl⟩)
  · exact .inr (.inr ⟨hl, b, d, hr, rfl⟩)

/-- Where a command is legal and its result is not a refusal, the frame adds nothing. -/
theorem exec_legal (i : Instr) (s : State) (h : s.blk.phase ∈ legalPhases i) :
    exec i s = s.finish (resultOf s i) := by rw [exec_eq, underFrame_legal _ _ _ h]

theorem exec_illegal (i : Instr) (s : State) (h : s.blk.phase ∉ legalPhases i) :
    exec i s = .next { s with resp := some .no } := by rw [exec_eq, underFrame_illegal _ _ _ h]

/-- `UNIT_WIDTHS` is {4, 8} (00_scope.md R4). -/
theorem mem_unitWidths (a : Byte) : a.toNat ∈ Config.unitWidths ↔ a = 4 ∨ a = 8 := by
  simp [Config.unitWidths, ← BitVec.toNat_inj]

/-- What a command that ends performed did, command by command. -/
theorem resultOf_performed (i : Instr) (s : State) (b : Block) (d : Word) (h : resultOf s i = .performed b d) :
    (i = .clr ∧ b = Block.reset) ∨
    (∃ a, i = .cfg a ∧ (a = 4 ∨ a = 8) ∧ b = { s.blk with w := widthOperand a }) ∨
    (∃ a l d, i = .ldcode a l d ∧ 1 ≤ l.toNat ∧ l.toNat ≤ 64 ∧ (∃ e, Codebase.lookup s.blk.cb a = some e) ∧
      b = { s.blk with dup := true }) ∨
    (∃ a l d, i = .ldcode a l d ∧ 1 ≤ l.toNat ∧ l.toNat ≤ 64 ∧ Codebase.lookup s.blk.cb a = none ∧
      b = { s.blk with cb := Codebase.store s.blk.cb a (entryOperand l d) }) ∨
    (isPack i = true ∧ ∃ b', packUnits s.params.outDepth (unitsOf s.blk.w i) s.blk = .ok b' ∧
      b = { b' with phase := .pack }) ∨
    (i = .endStream ∧ ∃ b', flush s.params.outDepth s.blk = .ok b' ∧ b = { b' with phase := .done }) ∨
    ((i = .rdst ∨ i = .rderr ∨ i = .rdcnt ∨ ∃ n, i = .rdw n) ∧ b = s.blk) := by
  cases i with
  | clr => cases h; exact .inl ⟨rfl, rfl⟩
  | cfg a =>
    simp only [resultOf] at h
    split at h
    · rename_i ha
      cases h
      exact .inr (.inl ⟨a, rfl, (mem_unitWidths a).1 ha, rfl⟩)
    · cases h
  | ldcode a l d =>
    simp only [resultOf, Config.maxLen] at h
    split at h
    · cases h
    · split at h
      · cases h
      · split at h
        · rename_i hs
          cases h
          exact .inr (.inr (.inl ⟨a, l, d, rfl, by omega, by omega, Option.isSome_iff_exists.1 hs, rfl⟩))
        · rename_i hs
          cases h
          exact .inr (.inr (.inr (.inl ⟨a, l, d, rfl, by omega, by omega, by simpa using hs, rfl⟩)))
  | putu a =>
    obtain ⟨b', h1, h2, _⟩ := packed_performed _ _ _ h
    exact .inr (.inr (.inr (.inr (.inl ⟨rfl, b', h1, h2⟩))))
  | putb a =>
    obtain ⟨b', h1, h2, _⟩ := packed_performed _ _ _ h
    exact .inr (.inr (.inr (.inr (.inl ⟨rfl, b', h1, h2⟩))))
  | endStream =>
    obtain ⟨b', h1, h2, _⟩ := closed_performed _ _ _ h
    exact .inr (.inr (.inr (.inr (.inr (.inl ⟨rfl, b', h1, h2⟩)))))
  | rdst => cases h; exact .inr (.inr (.inr (.inr (.inr (.inr ⟨by simp, rfl⟩)))))
  | rderr => cases h; exact .inr (.inr (.inr (.inr (.inr (.inr ⟨by simp, rfl⟩)))))
  | rdcnt => cases h; exact .inr (.inr (.inr (.inr (.inr (.inr ⟨by simp, rfl⟩)))))
  | rdw n =>
    simp only [resultOf] at h
    split at h <;> cases h
    exact .inr (.inr (.inr (.inr (.inr (.inr ⟨by simp, rfl⟩)))))

/-- What raised the fault of a command that ends faulted, command by command. -/
theorem resultOf_raised (i : Instr) (s : State) (f : ErrorCode) (h : resultOf s i = .raised f) :
    (f = .badTreeGiven ∧ ∃ a l d, i = .ldcode a l d ∧ l.toNat = 0) ∨
    (f = .maxCodeLengthReached ∧ ∃ a l d, i = .ldcode a l d ∧ 64 < l.toNat) ∨
    (f = .unsupportedFeature ∧ ∃ a, i = .cfg a ∧ a ≠ 4 ∧ a ≠ 8) ∨
    (isPack i = true ∧ packUnits s.params.outDepth (unitsOf s.blk.w i) s.blk = .error f) ∨
    (i = .endStream ∧ f = .outputOverflow ∧ 0 < s.blk.fill.toNat ∧ s.blk.wcount = s.params.outDepth) := by
  cases i with
  | cfg a =>
    simp only [resultOf] at h
    split at h
    · cases h
    · rename_i ha
      cases h
      rw [mem_unitWidths, not_or] at ha
      exact .inr (.inr (.inl ⟨rfl, a, rfl, ha⟩))
  | ldcode a l d =>
    simp only [resultOf, Config.maxLen] at h
    split at h
    · cases h
      exact .inl ⟨rfl, a, l, d, rfl, ‹_›⟩
    · split at h
      · cases h
        exact .inr (.inl ⟨rfl, a, l, d, rfl, ‹_›⟩)
      · split at h <;> cases h
  | putu a => exact .inr (.inr (.inr (.inl ⟨rfl, packed_raised _ _ h⟩)))
  | putb a => exact .inr (.inr (.inr (.inl ⟨rfl, packed_raised _ _ h⟩)))
  | endStream =>
    obtain ⟨h1, h2, h3⟩ := flush_error _ _ _ (closed_raised _ _ h)
    exact .inr (.inr (.inr (.inr ⟨rfl, h1, h2, h3⟩)))
  | rdw n =>
    simp only [resultOf] at h
    split at h <;> cases h
  | clr => cases h
  | rdst => cases h
  | rderr => cases h
  | rdcnt => cases h

/-- Masking to the unit width at the two legal widths (41_packing.md R73). -/
theorem unitOf_four (a : Byte) : unitOf 4 a = a &&& 0x0F := by
  have : (ones (4 : BitVec 4).toNat).setWidth 8 = (0x0F : Byte) := by decide
  rw [unitOf, this]

theorem unitOf_eight (a : Byte) : unitOf 8 a = a := by
  have : (ones (8 : BitVec 4).toNat).setWidth 8 = BitVec.allOnes 8 := by decide
  rw [unitOf, this, BitVec.and_allOnes]

theorem lowNibble_eq (a : Byte) : lowNibble a = a &&& 0x0F := by revert a; decide

theorem highNibble_eq (a : Byte) : highNibble a = a >>> 4 := by revert a; decide

end Sys2Proof.Machine
end

