-- ==== Sys2Proof/Laws/PerInstr.lean ====
section
/-! SUPPORT. Per instruction: its encoding matches its own row of the opcode map (30_encoding.md R53). -/

namespace Sys2Proof.Laws.EncodedInItsRow

/-- The encoded command matches the row of its mnemonic. -/
def Statement (i : Instr) : Prop := i.row.matches (encode i)

theorem clr : Statement .clr := by unfold Statement; decide

theorem cfg (a : Byte) : Statement (.cfg a) := by
  simp only [Statement, OpcodeRow.matches, Instr.row, encode, masked_iff_fields, opField_packFields,
    rsvField_packFields, aField_packFields, lField_packFields, dField_packFields]
  exact ⟨by decide, by decide, by rw [show aField 0xFFFF00FFFFFFFFFFFFFFFFFF = 0 by decide]; simp; decide,
    by decide, by decide⟩

theorem ldcode (a l : Byte) (d : Code) : Statement (.ldcode a l d) := by
  simp only [Statement, OpcodeRow.matches, Instr.row, encode, masked_iff_fields, opField_packFields,
    rsvField_packFields, aField_packFields, lField_packFields, dField_packFields]
  exact ⟨by decide, by decide, by rw [show aField 0xFFFF00000000000000000000 = 0 by decide]; simp; decide,
    by rw [show lField 0xFFFF00000000000000000000 = 0 by decide]; simp; decide,
    by rw [show dField 0xFFFF00000000000000000000 = 0 by decide]; simp; decide⟩

theorem putu (a : Byte) : Statement (.putu a) := by
  simp only [Statement, OpcodeRow.matches, Instr.row, encode, masked_iff_fields, opField_packFields,
    rsvField_packFields, aField_packFields, lField_packFields, dField_packFields]
  exact ⟨by decide, by decide, by rw [show aField 0xFFFF00FFFFFFFFFFFFFFFFFF = 0 by decide]; simp; decide,
    by decide, by decide⟩

theorem putb (a : Byte) : Statement (.putb a) := by
  simp only [Statement, OpcodeRow.matches, Instr.row, encode, masked_iff_fields, opField_packFields,
    rsvField_packFields, aField_packFields, lField_packFields, dField_packFields]
  exact ⟨by decide, by decide, by rw [show aField 0xFFFF00FFFFFFFFFFFFFFFFFF = 0 by decide]; simp; decide,
    by decide, by decide⟩

theorem endStream : Statement .endStream := by unfold Statement; decide

theorem rdst : Statement .rdst := by unfold Statement; decide

theorem rderr : Statement .rderr := by unfold Statement; decide

theorem rdcnt : Statement .rdcnt := by unfold Statement; decide

theorem rdw (i : Word) : Statement (.rdw i) := by
  simp only [Statement, OpcodeRow.matches, Instr.row, encode, masked_iff_fields, opField_packFields,
    rsvField_packFields, aField_packFields, lField_packFields, dField_packFields]
  refine ⟨by decide, by decide, by decide, by decide, ?_⟩
  rw [show dField 0xFFFFFFFFFFFFFFFF00000000 = (0xFFFFFFFF : BitVec 32) ++ (0 : BitVec 32) by decide,
    show dField 0xB00000000000000000000000 = (0 : BitVec 32) ++ (0 : BitVec 32) by decide, BitVec.and_append]
  simp

end Sys2Proof.Laws.EncodedInItsRow
end

