-- ==== Sys2Proof/Tests/Slice0.lean ====
section
/-! SUPPORT. The model's own tests. Expected results come from the spec's worked examples and vectors, named in each
docstring; the `witness_` theorems show, for each obligation with hypotheses, a concrete state that meets them. -/

namespace Sys2Proof.Tests

open Sys2Proof.Machine

/-! ### Operand checks: one ill-formed term for each -/

theorem test_wellFormed_refuses_width_5 : (Instr.cfg 5).wellFormed = false := by decide
theorem test_wellFormed_refuses_length_0 : (Instr.ldcode 0x41 0 0).wellFormed = false := by decide
theorem test_wellFormed_refuses_length_65 : (Instr.ldcode 0x41 65 0).wellFormed = false := by decide
theorem test_wellFormed_accepts : (Instr.cfg 4).wellFormed && (Instr.ldcode 0xFF 64 1).wellFormed = true := by decide

/-! ### Decoding: words of 30_encoding.md section 7 and 95_test_vectors.md part 2 -/

theorem test_decode_clr : decodeTableWord 96 0x100000000000000000000000 = some .clr := by decide
theorem test_decode_cfg : decodeTableWord 96 0x200008000000000000000000 = some (.cfg 8) := by decide
theorem test_decode_ldcode :
    decodeTableWord 96 0x300041200000000000000000 = some (.ldcode 0x41 32 0) := by decide
theorem test_decode_ldcode_data :
    decodeTableWord 96 0x3000FF408000000000000001 = some (.ldcode 0xFF 64 0x8000000000000001) := by decide
theorem test_decode_putu : decodeTableWord 96 0x400041000000000000000000 = some (.putu 0x41) := by decide
theorem test_decode_putb : decodeTableWord 96 0x50002B000000000000000000 = some (.putb 0x2B) := by decide
theorem test_decode_end : decodeTableWord 96 0x600000000000000000000000 = some .endStream := by decide
theorem test_decode_rdst : decodeTableWord 96 0x800000000000000000000000 = some .rdst := by decide
theorem test_decode_rderr : decodeTableWord 96 0x900000000000000000000000 = some .rderr := by decide
theorem test_decode_rdcnt : decodeTableWord 96 0xA00000000000000000000000 = some .rdcnt := by decide
theorem test_decode_rdw : decodeTableWord 96 0xB000000000000000FFFFFFFF = some (.rdw 0xFFFFFFFF) := by decide

/-- The undefined encodings of 95_test_vectors.md part 2. -/
theorem test_decode_undefined :
    ([0, 0xFFFFFFFFFFFFFFFFFFFFFFFF, 0x700000000000000000000000, 0xC00000000000000000000000,
      0x30FF41010000000000000001, 0x800100000000000000000000, 0x100000000000000000000001,
      0x100001000000000000000000, 0x200008010000000000000000, 0x200008000000000000000001,
      0x400041010000000000000000, 0x500041008000000000000000, 0x600001000000000000000000,
      0x900000010000000000000000, 0xA00000000000000100000000, 0xB00001000000000000000000,
      0xB00000000000000100000000] : List Nat).all (fun w => (decodeTableWord 96 w).isNone) = true := by decide

/-- 30_encoding.md section 7. -/
theorem test_encode_ldcode : encode (.ldcode 0x42 2 1) = 0x300042020000000000000001 := by decide

/-! ### The assembler's notation (30_encoding.md R57) -/

theorem test_assemble_literal : (AsmLine.ldcodeBits 0x43 [false, false]).assemble = some [.ldcode 0x43 2 0] := by
  decide
theorem test_assemble_text : (AsmLine.puts [0x41, 0x42]).assemble = some [.putb 0x41, .putb 0x42] := by decide
theorem test_assemble_line : assembleLine ("LDCODE\t0x42, b\"01\" ; B".toList) = some [0x300042020000000000000001] := by
  decide
theorem test_assemble_comment : assembleLine " ; nothing".toList = some [] := by decide
theorem test_assemble_too_wide : (AsmLine.cfg 256).assemble = none := by decide

/-! ### States -/

/-- A codebase entry from numbers. -/
def entry (len code : Nat) : CodeEntry := { len := BitVec.ofNat 7 len, code := BitVec.ofNat 64 code }

/-- A codebase with the given entries and no other. -/
def codebase : List (Byte × CodeEntry) → Codebase
  | [] => Block.reset.cb
  | (u, e) :: es => Codebase.store (codebase es) u e

/-- A machine with nothing presented whose block is `b` with the given entries. -/
def mk (depth : Nat) (es : List (Byte × CodeEntry)) (b : Block) : State :=
  { blk := { b with cb := codebase es }, params := { outDepth := depth, byteOrder := .little }, inputs := [],
    resp := none }

/-- Entries of one, three and sixty-four bits. -/
def codes : List (Byte × CodeEntry) :=
  [(0x41, entry 1 1), (0x42, entry 3 0b101), (0xFF, entry 64 0x8000000000000001)]

/-- The entries of the example of 41_packing.md R74, and two more. -/
def nibbles : List (Byte × CodeEntry) :=
  [(0xB, entry 2 0b10), (0x2, entry 1 1), (0x1, entry 1 0), (0x3, entry 32 0)]

/-- LOAD, with codes loaded. -/
def loadSt : State := mk 8 codes Block.reset

/-- The state of the example of 41_packing.md R73. -/
def packSt : State :=
  mk 8 codes { Block.reset with fill := 30, acc := 0xFFFFFFFC, out := [0, 0, 0, 0, 0], phase := .pack }

/-- `W` = 4, as in the example of 41_packing.md R74. -/
def nibSt : State := mk 2 nibbles { Block.reset with w := 4, phase := .pack }

/-- A buffer with room for one word, and one bit short of it. -/
def edgeSt : State := mk 1 codes { Block.reset with fill := 31, acc := 0xFFFFFFFE, phase := .pack }

/-- `edgeSt` at `W` = 4. -/
def nibEdgeSt : State := mk 1 nibbles { Block.reset with w := 4, fill := 31, acc := 0xFFFFFFFE, phase := .pack }

/-- A full buffer, and one bit short of another word. -/
def fullSt : State :=
  mk 1 codes { Block.reset with fill := 31, acc := 0xFFFFFFFE, out := [0xFFFFFFFF], phase := .pack }

/-- `fullSt` at `W` = 4. -/
def nibFullSt : State :=
  mk 1 nibbles { Block.reset with w := 4, fill := 31, acc := 0xFFFFFFFE, out := [0xFFFFFFFF], phase := .pack }

/-- The state of the example of 41_packing.md R75. -/
def endSt : State := mk 8 codes { Block.reset with fill := 12, acc := 0xAAA00000, out := [1], phase := .pack }

/-- The state of the example of 42_readback.md R88. -/
def doneSt : State := mk 8 codes { Block.reset with out := [0xFFFFFFFE, 0x80000000], phase := .done }

/-- FAULT, with the code of the example of 40_setup.md R61. -/
def faultSt : State := mk 8 codes { Block.reset with err := 11, phase := .fault, dup := true }

/-- `s` with one command presented. -/
def given (s : State) (i : Instr) : State := { s with inputs := [.command (encode i)] }

/-- A property of the next state, false where there is none. -/
def andThen (o : Host.Outcome State Fault Refusal) (p : State → Bool) : Bool :=
  match o with
  | .next t => p t
  | .fault _ => false
  | .refused _ => false

/-- The response a next state shows. -/
def answers (t : State) (ok : Bool) (d : Word) : Bool := t.resp == some { ok := ok, data := d }

/-! ### One step of each command, from the spec's examples -/

/-- 40_setup.md R61. -/
theorem test_clr : andThen (exec .clr faultSt) (fun t =>
    Codebase.lookup t.blk.cb 0x41 == none && t.blk.statusWord == 0x80 && t.blk.err == 0 && answers t true 0) = true := by
  decide +kernel

/-- 40_setup.md R62: `CFG 5`. -/
theorem test_cfg_faults : andThen (exec (.cfg 5) loadSt) (fun t =>
    t.blk.phase == .fault && t.blk.err == 9 && t.blk.w == 8 && answers t false 0) = true := by decide +kernel

/-- 95_test_vectors.md S2. -/
theorem test_cfg : andThen (exec (.cfg 4) loadSt) (fun t => t.blk.w == 4 && answers t true 0) = true := by
  decide +kernel

/-- 95_test_vectors.md S12: bits above the length are dropped. -/
theorem test_ldcode : andThen (exec (.ldcode 0x43 2 0xFF) loadSt) (fun t =>
    Codebase.lookup t.blk.cb 0x43 == some (entry 2 3) && !t.blk.dup && answers t true 0) = true := by decide +kernel

/-- 40_setup.md R63 (c): the first load wins. -/
theorem test_ldcode_again : andThen (exec (.ldcode 0x41 2 0) loadSt) (fun t =>
    Codebase.lookup t.blk.cb 0x41 == some (entry 1 1) && t.blk.dup && answers t true 0) = true := by decide +kernel

/-- 41_packing.md R73, the example. -/
theorem test_putu : andThen (exec (.putu 0x42) packSt) (fun t =>
    t.blk.out == [0, 0, 0, 0, 0, 0xFFFFFFFE] && t.blk.acc == 0x80000000 && t.blk.fill == 1 &&
    answers t true 0) = true := by decide +kernel

/-- 95_test_vectors.md A18: a 64-bit code at `FILL` = 31 touches three words. -/
theorem test_putu_three_words :
    andThen (exec (.putu 0xFF) (mk 8 codes { Block.reset with fill := 31, phase := .pack })) (fun t =>
      t.blk.out == [1, 0] && t.blk.acc == 2 && t.blk.fill == 31) = true := by decide +kernel

/-- 41_packing.md R74, the example. -/
theorem test_putb : andThen (exec (.putb 0x2B) nibSt) (fun t =>
    t.blk.acc == 0xA0000000 && t.blk.fill == 3 && t.blk.out == [] && answers t true 0) = true := by decide +kernel

/-- 60_exceptions.md R94 (6): the low nibble's overflow comes before the high nibble's missing entry. -/
theorem test_putb_low_first : andThen (exec (.putb 0xE1) nibFullSt) (fun t =>
    t.blk.err == 12 && t.blk.phase == .fault && t.blk.out == []) = true := by decide +kernel

/-- 41_packing.md R75, the example. -/
theorem test_end : andThen (exec .endStream endSt) (fun t =>
    t.blk.out == [1, 0xAAA00000] && t.blk.fill == 0 && t.blk.phase == .done && answers t true 2) = true := by
  decide +kernel

/-- 42_readback.md R85: in PACK with `W` = 4, `FILL` = 3, `DUP` = 0. -/
theorem test_rdst : andThen (exec .rdst { nibSt with blk := { nibSt.blk with fill := 3 } }) (fun t =>
    answers t true 0x341) = true := by decide +kernel

/-- 42_readback.md R86: the read does not clear the code. -/
theorem test_rderr : andThen (exec .rderr faultSt) (fun t => answers t true 11 && t.blk.err == 11) = true := by
  decide +kernel

/-- 42_readback.md R87. -/
theorem test_rdcnt : andThen (exec .rdcnt endSt) (fun t => answers t true 1) = true := by decide +kernel

/-- 42_readback.md R88, the example. -/
theorem test_rdw : andThen (exec (.rdw 1) doneSt) (fun t => answers t true 0x80000000) = true := by decide +kernel
theorem test_rdw_beyond : andThen (exec (.rdw 2) doneSt) (fun t =>
    answers t false 0 && t.blk.out == doneSt.blk.out && t.blk.phase == .done) = true := by decide +kernel

/-- 10_state.md R24 and 42_readback.md R85: the status word after reset. The step takes a command placed from the
opcode table's own number. -/
theorem test_step_from_reset :
    andThen (step (State.reset.withFetchWord 96 0x800000000000000000000000)) (fun t =>
      answers t true 0x80 && t.blk.phase == .load && t.inputs == []) = true := by decide +kernel

/-- 30_encoding.md R54: an undefined encoding is refused and changes nothing. -/
theorem test_step_undefined :
    andThen (step (packSt.withFetchWord 96 0x400041010000000000000000)) (fun t =>
      answers t false 0 && t.blk.statusWord == packSt.blk.statusWord && t.blk.out == packSt.blk.out) = true := by decide +kernel

/-! ### Witnesses: concrete states that meet the hypotheses of each obligation -/

/-- A next state with a property, from a check that computes. -/
theorem next_with {o : Host.Outcome State Fault Refusal} {P : State → Prop} [DecidablePred P]
    (h : andThen o (fun t => decide (P t)) = true) : ∃ t, o = .next t ∧ P t := by
  cases o with
  | next t => exact ⟨t, rfl, of_decide_eq_true h⟩
  | fault f => cases h
  | refused r => cases h

theorem mem_of_lookup (es : List (Byte × CodeEntry)) (u : Byte) (e : CodeEntry)
    (h : Codebase.lookup (codebase es) u = some e) : (u, e) ∈ es := by
  induction es with
  | nil => simp [codebase, lookup_reset] at h
  | cons p es ih =>
    by_cases hp : p.1 = u
    · subst hp
      simp only [codebase, lookup_store_same] at h
      cases h
      simp
    · simp only [codebase, lookup_store_other _ _ _ _ hp] at h
      exact List.mem_cons_of_mem _ (ih h)

/-- `CodeEntry.wf` as a check that computes. -/
def wfCheck (e : CodeEntry) : Bool :=
  decide (1 ≤ e.len.toNat) && decide (e.len.toNat ≤ 64) && decide (e.code.toNat < 2 ^ e.len.toNat)

theorem wf_of_check (e : CodeEntry) (h : wfCheck e = true) : e.wf := by
  simp only [wfCheck, Bool.and_eq_true, decide_eq_true_eq] at h
  refine ⟨h.1.1, h.1.2, fun k hk => ?_⟩
  have hp : 2 ^ e.len.toNat ≤ 2 ^ k := Nat.pow_le_pow_right (by decide) hk
  exact Nat.testBit_lt_two_pow (Nat.lt_of_lt_of_le h.2 hp)

/-- The parts of the invariant that compute. -/
abbrev shape (depth : Nat) (b : Block) : Prop :=
  (1 ≤ depth ∧ depth ≤ Config.maxOutDepth) ∧ lowClear b.fill.toNat b.acc ∧ b.fill.toNat ≤ 31 ∧ b.wcount ≤ depth ∧
  (b.err ≠ 0 ↔ b.phase = .fault) ∧ (b.phase ≠ .pack → b.fill = 0 ∧ b.acc = 0) ∧
  (b.phase = .load ∨ b.phase = .fault → b.out = []) ∧ (b.w = 4 ∨ b.w = 8) ∧ b.err ∈ raisedCodes

theorem mk_inv (depth : Nat) (es : List (Byte × CodeEntry)) (b : Block) (hs : shape depth b)
    (he : es.all (fun p => wfCheck p.2) = true) : (mk depth es b).Inv := by
  obtain ⟨h0, h1, h2, h3, h4, h5, h6, h7, h8⟩ := hs
  refine ⟨h0, ⟨h1, h2, h3, h4, h5, h6, h7, fun u e hl => ?_, h8⟩⟩
  exact wf_of_check e (List.all_eq_true.1 he _ (mem_of_lookup es u e hl))

theorem load_inv : loadSt.Inv := mk_inv _ _ _ (by decide) (by decide)
theorem pack_inv : packSt.Inv := mk_inv _ _ _ (by decide) (by decide)
theorem nib_inv : nibSt.Inv := mk_inv _ _ _ (by decide) (by decide)
theorem edge_inv : edgeSt.Inv := mk_inv _ _ _ (by decide) (by decide)
theorem nib_edge_inv : nibEdgeSt.Inv := mk_inv _ _ _ (by decide) (by decide)
theorem full_inv : fullSt.Inv := mk_inv _ _ _ (by decide) (by decide)
theorem nib_full_inv : nibFullSt.Inv := mk_inv _ _ _ (by decide) (by decide)
theorem end_inv : endSt.Inv := mk_inv _ _ _ (by decide) (by decide)
theorem done_inv : doneSt.Inv := mk_inv _ _ _ (by decide) (by decide)
theorem fault_inv : faultSt.Inv := mk_inv _ _ _ (by decide) (by decide)

/-! Encoding and the step -/

theorem witness_EncodeAndDecodeAreInverse : decode 0x3000FFFFFFFFFFFFFFFFFFFF =
    .ok (.ldcode 0xFF 0xFF 0xFFFFFFFFFFFFFFFF) := rfl

theorem witness_OperandsAreTheirFields :
    decode 0x2000FF000000000000000000 = .ok (.cfg 255) ∧
    decode 0x300000010000000000000000 = .ok (.ldcode 0 1 0) ∧
    decode 0x4000FF000000000000000000 = .ok (.putu 0xFF) ∧
    decode 0x500000000000000000000000 = .ok (.putb 0) ∧
    decode 0xB00000000000000000000000 = .ok (.rdw 0) := ⟨rfl, rfl, rfl, rfl, rfl⟩

theorem witness_StepPerformsTheDecodedCommand :
    (given packSt (.putu 0x42)).inputs = .command 0x400042000000000000000000 :: [] ∧
    decode 0x400042000000000000000000 = .ok (.putu 0x42) ∧
    decode 0x000000000000000000000000 = .error .unusedOpcode := ⟨by decide, rfl, rfl⟩

theorem witness_RstTakesEveryStateToReset :
    ({ packSt with inputs := [.rst] } : State).inputs = .rst :: [] ∧ packSt.inputs = [] := ⟨rfl, rfl⟩

theorem witness_StepDependsOnBlockCommandAndDepth :
    ∃ s s' : State, s ≠ s' ∧ s.blk = s'.blk ∧ s.params.outDepth = s'.params.outDepth ∧
      s.inputs = .command (encode (.putu 0x41)) :: [] ∧ s'.inputs = .command (encode (.putu 0x41)) :: [.rst] :=
  ⟨given edgeSt (.putu 0x41),
    { edgeSt with inputs := [.command (encode (.putu 0x41)), .rst],
                  params := { outDepth := 1, byteOrder := .big }, resp := some .no },
    fun h => by simpa [given] using congrArg (fun s => s.inputs.length) h, rfl, rfl, rfl, rfl⟩

/-! Setup commands -/

theorem witness_CfgSetsTheWidthOrFaults :
    loadSt.blk.phase = .load ∧ (3 : Byte) ≠ 4 ∧ (3 : Byte) ≠ 8 ∧ (9 : Byte) ≠ 4 ∧ (9 : Byte) ≠ 8 ∧
    packSt.blk.phase ≠ .load := by decide

theorem witness_LdcodeLoadsTheFirstCode :
    loadSt.blk.phase = .load ∧ (0 : Byte).toNat = 0 ∧ 64 < (65 : Byte).toNat ∧
    1 ≤ (1 : Byte).toNat ∧ (64 : Byte).toNat ≤ 64 ∧ (∃ e, Codebase.lookup loadSt.blk.cb 0x41 = some e) ∧
    Codebase.lookup loadSt.blk.cb 0x40 = none ∧ doneSt.blk.phase ≠ .load :=
  ⟨rfl, by decide, by decide, by decide, by decide, ⟨entry 1 1, by decide +kernel⟩, by decide +kernel, by decide⟩

theorem witness_BitLiteralLoadsItsOwnBits :
    (0 < 256 ∧ 255 < 256) ∧ 1 ≤ [true].length ∧ (List.replicate 64 true).length ≤ 64 ∧
    loadSt.blk.phase = .load ∧ Codebase.lookup loadSt.blk.cb (BitVec.ofNat 8 0) = none ∧
    Codebase.lookup State.reset.blk.cb (BitVec.ofNat 8 255) = none :=
  ⟨by decide, by decide, by decide, rfl, by decide +kernel, by decide +kernel⟩

/-! Packing commands -/

theorem witness_AppendFitsFillsOrSplits :
    (entry 1 1).wf ∧ (entry 64 0x8000000000000001).wf ∧ edgeSt.blk.fill.toNat ≤ 31 ∧
    -- it fits
    (entry 1 1).len.toNat < 32 - packSt.blk.fill.toNat ∧
    -- it fills the word
    (entry 1 1).len.toNat = 32 - edgeSt.blk.fill.toNat ∧ edgeSt.blk.wcount ≠ 1 ∧
    -- it is split
    32 - edgeSt.blk.fill.toNat < (entry 64 0x8000000000000001).len.toNat ∧
    -- the buffer is full
    32 - fullSt.blk.fill.toNat ≤ (entry 1 1).len.toNat ∧ fullSt.blk.wcount = 1 :=
  ⟨wf_of_check _ (by decide), wf_of_check _ (by decide), by decide, by decide, by decide, by decide, by decide,
    by decide, by decide⟩

/-- The last bit of the last word still fits. -/
theorem witness_PutuAppendsItsUnitsCode :
    (edgeSt.Inv ∧ edgeSt.blk.phase = .pack ∧ Codebase.lookup edgeSt.blk.cb 0x41 = some (entry 1 1) ∧
      edgeSt.blk.w ≠ 4 ∧ (edgeSt.blk.pos + (entry 1 1).len.toNat) / 32 ≤ edgeSt.params.outDepth) ∧
    (nibSt.Inv ∧ nibSt.blk.phase = .pack ∧ nibSt.blk.w = 4 ∧
      Codebase.lookup nibSt.blk.cb (0xFB &&& 0x0F) = some (entry 2 0b10) ∧
      (nibSt.blk.pos + (entry 2 0b10).len.toNat) / 32 ≤ nibSt.params.outDepth) ∧
    (loadSt.Inv ∧ loadSt.blk.phase = .load) :=
  ⟨⟨edge_inv, rfl, by decide +kernel, by decide, by decide⟩, ⟨nib_inv, rfl, rfl, by decide +kernel, by decide⟩,
    load_inv, rfl⟩

theorem witness_PutuFaultsAndRefusals :
    (edgeSt.Inv ∧ edgeSt.blk.phase = .pack ∧ edgeSt.blk.w ≠ 4 ∧ Codebase.lookup edgeSt.blk.cb 0x40 = none) ∧
    (fullSt.Inv ∧ fullSt.blk.phase = .pack ∧ fullSt.blk.w ≠ 4 ∧
      Codebase.lookup fullSt.blk.cb 0x41 = some (entry 1 1) ∧
      fullSt.params.outDepth < (fullSt.blk.pos + (entry 1 1).len.toNat) / 32) ∧
    (doneSt.Inv ∧ doneSt.blk.phase = .done) ∧ (faultSt.Inv ∧ faultSt.blk.phase = .fault) :=
  ⟨⟨edge_inv, rfl, by decide, by decide +kernel⟩, ⟨full_inv, rfl, by decide, by decide +kernel, by decide⟩,
    ⟨done_inv, rfl⟩, fault_inv, rfl⟩

theorem witness_PutbIsPutuOfItsUnits : packSt.blk.w = 8 ∧ nibSt.blk.w = 4 := by decide

theorem witness_PutbAppendsItsUnitsCodes :
    (edgeSt.Inv ∧ edgeSt.blk.phase = .pack ∧ edgeSt.blk.w = 8 ∧ Codebase.lookup edgeSt.blk.cb 0x41 ≠ none ∧
      (edgeSt.blk.pos + (unitsString edgeSt.blk.cb [0x41]).length) / 32 ≤ edgeSt.params.outDepth) ∧
    (nibSt.Inv ∧ nibSt.blk.phase = .pack ∧ nibSt.blk.w ≠ 8 ∧
      (∀ u ∈ ([0x2B &&& 0x0F, 0x2B >>> 4] : List Byte), Codebase.lookup nibSt.blk.cb u ≠ none) ∧
      (nibSt.blk.pos + (unitsString nibSt.blk.cb [0x2B &&& 0x0F, (0x2B : Byte) >>> 4]).length) / 32 ≤
        nibSt.params.outDepth) :=
  ⟨⟨edge_inv, rfl, rfl, by decide +kernel, by decide +kernel⟩,
    nib_inv, rfl, by decide, by decide +kernel, by decide +kernel⟩

theorem witness_PutbFaultsLowNibbleFirst :
    (nibSt.Inv ∧ nibSt.blk.w = 4 ∧ nibSt.blk.phase = .pack ∧ Codebase.lookup nibSt.blk.cb (0x1E &&& 0x0F) = none) ∧
    -- the low nibble overflows
    (nibFullSt.Inv ∧ nibFullSt.blk.w = 4 ∧ nibFullSt.blk.phase = .pack ∧
      Codebase.lookup nibFullSt.blk.cb (0xE1 &&& 0x0F) = some (entry 1 0) ∧
      nibFullSt.params.outDepth < (nibFullSt.blk.pos + (entry 1 0).len.toNat) / 32) ∧
    -- the high nibble has no entry
    (nibEdgeSt.Inv ∧ nibEdgeSt.blk.w = 4 ∧ nibEdgeSt.blk.phase = .pack ∧
      Codebase.lookup nibEdgeSt.blk.cb (0xE1 &&& 0x0F) = some (entry 1 0) ∧
      (nibEdgeSt.blk.pos + (entry 1 0).len.toNat) / 32 ≤ nibEdgeSt.params.outDepth ∧
      Codebase.lookup nibEdgeSt.blk.cb ((0xE1 : Byte) >>> 4) = none) ∧
    -- the high nibble overflows
    (Codebase.lookup nibEdgeSt.blk.cb ((0x31 : Byte) >>> 4) = some (entry 32 0) ∧
      Codebase.lookup nibEdgeSt.blk.cb (0x31 &&& 0x0F) = some (entry 1 0) ∧
      nibEdgeSt.params.outDepth < (nibEdgeSt.blk.pos + (entry 1 0).len.toNat + (entry 32 0).len.toNat) / 32) :=
  ⟨⟨nib_inv, rfl, rfl, by decide +kernel⟩, ⟨nib_full_inv, rfl, rfl, by decide +kernel, by decide⟩,
    ⟨nib_edge_inv, rfl, rfl, by decide +kernel, by decide, by decide +kernel⟩,
    by decide +kernel, by decide +kernel, by decide⟩

theorem witness_EndFlushesAndAnswersTheCount :
    (loadSt.Inv ∧ loadSt.blk.phase = .load ∧ loadSt.blk.fill = 0) ∧
    (edgeSt.Inv ∧ edgeSt.blk.phase = .pack ∧ edgeSt.blk.fill ≠ 0 ∧ edgeSt.blk.wcount < edgeSt.params.outDepth) ∧
    (fullSt.Inv ∧ fullSt.blk.phase = .pack ∧ fullSt.blk.fill ≠ 0 ∧ fullSt.blk.wcount = fullSt.params.outDepth) ∧
    (doneSt.Inv ∧ doneSt.blk.phase = .done) ∧ (faultSt.Inv ∧ faultSt.blk.phase = .fault) :=
  ⟨⟨load_inv, rfl, rfl⟩, ⟨edge_inv, rfl, by decide, by decide⟩, ⟨full_inv, rfl, by decide, by decide⟩,
    ⟨done_inv, rfl⟩, fault_inv, rfl⟩

theorem witness_HighEntriesAreUnreadAtWidth4 :
    nibSt.blk.w = 4 ∧ ∀ u : Byte, u.toNat < 16 →
      Codebase.lookup (Codebase.store nibSt.blk.cb 16 (entry 1 1)) u = Codebase.lookup nibSt.blk.cb u :=
  ⟨rfl, fun u hu => lookup_store_other _ _ _ _ fun h => by subst h; exact absurd hu (by decide)⟩

theorem witness_PutuAdvancesByItsCodeLength :
    packSt.Inv ∧ ∃ t, exec (.putu 0x42) packSt = .next t ∧ t.answeredOk = true :=
  ⟨pack_inv, next_with (by decide +kernel)⟩

/-! Read commands -/

theorem witness_RdstShowsEveryField : loadSt.Inv ∧ loadSt.blk.phase ≠ .pack := ⟨load_inv, by decide⟩

theorem witness_RderrAnswersTheStickyCode : doneSt.Inv ∧ doneSt.blk.phase ≠ .fault := ⟨done_inv, by decide⟩

theorem witness_RdcntAnswersTheWordCount :
    (loadSt.Inv ∧ loadSt.blk.phase = .load) ∧ (faultSt.Inv ∧ faultSt.blk.phase = .fault) :=
  ⟨⟨load_inv, rfl⟩, fault_inv, rfl⟩

theorem witness_RdwAnswersAFinishedWord :
    doneSt.blk.phase = .done ∧ (1 : Word).toNat < doneSt.blk.wcount ∧ doneSt.blk.wcount ≤ (2 : Word).toNat ∧
    packSt.blk.phase ≠ .done := by decide

theorem witness_ReadsChangeNothingAndRepeat : Instr.rdw 0 = .rdst ∨ Instr.rdw 0 = .rderr ∨ Instr.rdw 0 = .rdcnt ∨
    ∃ n, Instr.rdw 0 = .rdw n := .inr (.inr (.inr ⟨0, rfl⟩))

/-! The whole machine -/

theorem witness_PhaseFollowsTheTable :
    packSt.Inv ∧ ∃ t, exec (.putu 0x40) packSt = .next t ∧ t.blk.phase = .fault :=
  ⟨pack_inv, next_with (by decide +kernel)⟩

theorem witness_RefusalsAreExactlyTheListed :
    (given packSt (.rdw 0)).inputs = .command (encode (.rdw 0)) :: [] := rfl

theorem witness_FaultEntryDiscardsTheOutput :
    ∃ t, exec (.putu 0x40) packSt = .next t ∧ packSt.blk.phase ≠ .fault ∧ t.blk.phase = .fault :=
  next_with (by decide +kernel)

/-- One for each cause. -/
theorem witness_EachErrorCodeHasItsCause :
    (loadSt.Inv ∧ edgeSt.Inv ∧ fullSt.Inv) ∧
    (∃ t, exec (.ldcode 0 0 0) loadSt = .next t ∧ loadSt.blk.phase ≠ .fault ∧ t.blk.phase = .fault) ∧
    (∃ t, exec (.ldcode 0 65 0) loadSt = .next t ∧ loadSt.blk.phase ≠ .fault ∧ t.blk.phase = .fault) ∧
    (∃ t, exec (.cfg 0) loadSt = .next t ∧ loadSt.blk.phase ≠ .fault ∧ t.blk.phase = .fault) ∧
    (∃ t, exec (.putb 0x40) edgeSt = .next t ∧ edgeSt.blk.phase ≠ .fault ∧ t.blk.phase = .fault) ∧
    (∃ t, exec (.putu 0x41) fullSt = .next t ∧ fullSt.blk.phase ≠ .fault ∧ t.blk.phase = .fault) ∧
    (∃ t, exec .endStream fullSt = .next t ∧ fullSt.blk.phase ≠ .fault ∧ t.blk.phase = .fault) :=
  ⟨⟨load_inv, edge_inv, full_inv⟩, next_with (by decide +kernel), next_with (by decide +kernel),
    next_with (by decide +kernel), next_with (by decide +kernel), next_with (by decide +kernel),
    next_with (by decide +kernel)⟩

theorem witness_OnlyClrAndResetLeaveFault :
    faultSt.blk.phase = .fault ∧ (∃ t, step (given faultSt .endStream) = .next t ∧ t.resp = some .no) ∧
    (∃ t, step (given faultSt .clr) = .next t ∧ t.blk.phase = .load) :=
  ⟨rfl, next_with (by decide +kernel), next_with (by decide +kernel)⟩

theorem witness_FinishedOutputIsFixed :
    doneSt.blk.phase = .done ∧ (∃ t, step (given doneSt (.putu 0x41)) = .next t ∧ t.resp = some .no) ∧
    (∃ t, step (given doneSt .clr) = .next t ∧ t.blk.phase = .load) :=
  ⟨rfl, next_with (by decide +kernel), next_with (by decide +kernel)⟩

theorem witness_CodebaseChangesOnlyByClrAndLdcode :
    (∃ t, exec .clr packSt = .next t ∧ Codebase.lookup t.blk.cb 0x41 ≠ Codebase.lookup packSt.blk.cb 0x41) ∧
    (∃ t, exec (.ldcode 0x40 1 0) loadSt = .next t ∧
      Codebase.lookup t.blk.cb 0x40 ≠ Codebase.lookup loadSt.blk.cb 0x40) :=
  ⟨next_with (by decide +kernel), next_with (by decide +kernel)⟩

theorem witness_WidthErrorAndDupHaveTheirWriters :
    (∃ t, exec (.cfg 4) loadSt = .next t ∧ t.blk.w ≠ loadSt.blk.w) ∧
    (∃ t, exec (.cfg 5) loadSt = .next t ∧ t.blk.err ≠ loadSt.blk.err) ∧
    (∃ t, exec (.ldcode 0x41 1 0) loadSt = .next t ∧ t.blk.dup = true ∧ loadSt.blk.dup = false) ∧
    (∃ t, exec .clr faultSt = .next t ∧ t.blk.dup = false ∧ faultSt.blk.dup = true) :=
  ⟨next_with (by decide +kernel), next_with (by decide +kernel), next_with (by decide +kernel),
    next_with (by decide +kernel)⟩

theorem witness_OutOnlyGrowsAtItsEnd :
    (endSt.Inv ∧ ∃ t, exec .endStream endSt = .next t ∧ t.blk.out ≠ endSt.blk.out) ∧
    (packSt.Inv ∧ ∃ t, exec (.putu 0x40) packSt = .next t ∧ t.blk.out = []) :=
  ⟨⟨end_inv, next_with (by decide +kernel)⟩, pack_inv, next_with (by decide +kernel)⟩

theorem witness_OutputSignalsRiseAndFall :
    (∃ t, step (given endSt .endStream) = .next t ∧ t.answeredOk = true ∧ endSt.blk.doneO = false ∧
      t.blk.doneO = true) ∧
    (∃ t, step (given loadSt (.cfg 5)) = .next t ∧ loadSt.blk.faultO = false ∧ t.blk.faultO = true) ∧
    (∃ t, step (given doneSt .clr) = .next t ∧ doneSt.blk.doneO = true ∧ t.blk.doneO = false) ∧
    (∃ t, step { faultSt with inputs := [.rst] } = .next t ∧ faultSt.blk.faultO = true ∧ t.blk.faultO = false) :=
  ⟨next_with (by decide +kernel), next_with (by decide +kernel), next_with (by decide +kernel),
    next_with (by decide +kernel)⟩

theorem witness_InvariantHoldsAfterReset :
    ∃ p q : Config.Params, (1 ≤ p.outDepth ∧ p.outDepth ≤ 4294967295 ∧ p.outDepth = 1) ∧
      (1 ≤ q.outDepth ∧ q.outDepth ≤ 4294967295 ∧ q.outDepth = 4294967295) :=
  ⟨{ outDepth := 1, byteOrder := .little }, { outDepth := 4294967295, byteOrder := .big }, by decide, by decide⟩

theorem witness_EveryStepKeepsTheInvariant :
    (given packSt (.putu 0x42)).Inv ∧ ∃ t, step (given packSt (.putu 0x42)) = .next t ∧ t.answeredOk = true :=
  ⟨⟨pack_inv.params, pack_inv.block⟩, next_with (by decide +kernel)⟩

/-! Whole runs: the codes of GBAT's example, 95_test_vectors.md part 3, over three units -/

/-- A setup. -/
def setup : List Instr := [.cfg 8, .ldcode 0x41 1 1, .ldcode 0x43 2 0, .ldcode 0x42 2 1]

/-- Three packing commands. -/
def packs : List Instr := [.putb 0x41, .putu 0x42, .putb 0x43]

theorem run_hypotheses : State.reset.params.wf ∧ State.reset.blk = State.reset.blk ∧
    (∀ i ∈ setup, isSetup i = true) ∧ (∀ i ∈ packs, isPack i = true) := by
  refine ⟨by decide, rfl, by decide, by decide⟩

theorem witness_RunPacksItsUnitsInOrder :
    (∃ t, performAll (setup ++ packs) State.reset = some t) ∧
    (∃ t, performAll (setup ++ packs ++ [.endStream]) State.reset = some t) :=
  ⟨Option.isSome_iff_exists.1 (by decide +kernel), Option.isSome_iff_exists.1 (by decide +kernel)⟩

/-- The bits 1, 01, 00 and the zero-fill: 0xA0000000. -/
theorem witness_StreamBitsStandMostSignificantFirst :
    ((performAll (setup ++ packs ++ [.endStream]) State.reset).map fun t =>
      (t.blk.out, decide (31 / 32 < t.blk.out.length))) = some ([0xA0000000], true) := by decide +kernel

/-- The codebase of the run. -/
def runCodes : List (Byte × CodeEntry) := [(0x42, entry 2 1), (0x43, entry 2 0), (0x41, entry 1 1)]

theorem witness_PrefixFreeRunsDecodeBack :
    ∃ t, performAll (setup ++ packs ++ [.endStream]) State.reset = some t ∧ prefixFree t.blk.cb := by
  have h : ((performAll (setup ++ packs ++ [.endStream]) State.reset).map fun t => t.blk.cb) =
      some (codebase runCodes) := rfl
  obtain ⟨t, ht, hc⟩ := Option.map_eq_some_iff.1 h
  refine ⟨t, ht, ?_⟩
  rw [hc]
  intro u v e f hne hu hv
  have hall : ∀ p ∈ runCodes, ∀ q ∈ runCodes, p.1 ≠ q.1 → p.2.string.isPrefixOf q.2.string = false := by decide
  exact hall _ (mem_of_lookup _ _ _ hu) _ (mem_of_lookup _ _ _ hv) hne

theorem witness_CoveredRunsThatFitComplete :
    edgeSt.Inv ∧ edgeSt.blk.phase = .pack ∧ (∀ i ∈ [Instr.putu 0x41], isPack i = true) ∧
    (∀ u ∈ [Instr.putu 0x41].flatMap (unitsOf edgeSt.blk.w), Codebase.lookup edgeSt.blk.cb u ≠ none) ∧
    (edgeSt.blk.pos + (unitsString edgeSt.blk.cb ([Instr.putu 0x41].flatMap (unitsOf edgeSt.blk.w))).length + 31) / 32 ≤
      edgeSt.params.outDepth :=
  ⟨edge_inv, rfl, by decide, by decide +kernel, by decide +kernel⟩

theorem witness_ByteImageFollowsTheByteOrder :
    1 < doneSt.blk.out.length ∧ doneSt.params.byteOrder = .little ∧
    ({ doneSt with params := { doneSt.params with byteOrder := .big } } : State).params.byteOrder = .big := by decide

end Sys2Proof.Tests
end

section
/-! What `CLR` does, from the frame lemmas, and the two output signals of the reset block. -/

namespace Sys2Proof.Machine

@[simp] theorem reset_doneO : Block.reset.doneO = false := rfl
@[simp] theorem reset_faultO : Block.reset.faultO = false := rfl

/-- `CLR` is legal in every phase, so the frame only adds the response (40_setup.md R61). -/
theorem exec_clr (s : State) :
    exec .clr s = .next { s with blk := Block.reset, resp := some (.yes 0) } := by
  have hlegal : s.blk.phase ∈ legalPhases .clr := mem_everyPhase _
  have hresult : resultOf s .clr = .performed Block.reset 0 := rfl
  rw [exec_legal _ _ hlegal, hresult, finish_performed]

/-- Settles O9: `CLR` performs in every phase with the reset block, whose elements are read off one by one
(10_state.md R24). -/
theorem clrGivesTheResetState : Obligations.ClrGivesTheResetState := fun s =>
  ⟨Block.reset, exec_clr s, resetWith_blk _, lookup_reset, reset_w, reset_acc, reset_fill, reset_out, reset_wcount,
    reset_phase, reset_err, reset_dup, reset_doneO, reset_faultO⟩

end Sys2Proof.Machine
end

section
/-! One step, and reading commands (20_memory.md R39, R40). -/

namespace Sys2Proof.Machine

/-- A step takes the oldest command; a defined one is its meaning (40_setup.md R60). -/
theorem step_defined (s : State) (c : Cmd) (rest : List Input) (i : Instr) (hin : s.inputs = .command c :: rest)
    (hdec : decode c = .ok i) : step s = exec i { s with inputs := rest } := by
  simp only [step, hin, hdec]

/-- A step takes the oldest command; an undefined one is refused in every phase (30_encoding.md R54). -/
theorem step_undefined (s : State) (c : Cmd) (rest : List Input) (r : Undefined) (hin : s.inputs = .command c :: rest)
    (hdec : decode c = .error r) : step s = .next { s with inputs := rest, resp := some .no } := by
  simp only [step, hin, hdec, State.refuseUndefined, finish_refused]

/-- Settles O5, from the two cases of the decoder. -/
theorem stepPerformsTheDecodedCommand : Obligations.StepPerformsTheDecodedCommand := fun s c rest hin =>
  ⟨fun i => step_defined s c rest i hin, fun r => step_undefined s c rest r hin⟩

/-- No command's result reads the last response. -/
theorem resultOf_resp (i : Instr) (s : State) (r : Option Response) :
    resultOf { s with resp := r } i = resultOf s i := rfl

/-- No ending of a command reads the last response. -/
theorem finish_resp (s : State) (r : Option Response) (x : Result) :
    ({ s with resp := r } : State).finish x = s.finish x := by
  cases x <;> rfl

/-- No command reads the last response (10_state.md R22). -/
theorem exec_resp (i : Instr) (s : State) (r : Option Response) : exec i { s with resp := r } = exec i s := by
  simp only [exec_eq, resultOf_resp, State.underFrame, finish_resp]

/-- A read command changes the response alone (20_memory.md R39). -/
theorem exec_read (i : Instr) (s : State) (h : i = .rdst ∨ i = .rderr ∨ i = .rdcnt ∨ ∃ n, i = .rdw n) :
    ∃ r, exec i s = .next { s with resp := some r } := by
  rcases h with rfl | rfl | rfl | ⟨n, rfl⟩
  · exact ⟨_, underFrame_every s _⟩
  · exact ⟨_, underFrame_every s _⟩
  · exact ⟨_, underFrame_every s _⟩
  · by_cases hp : s.blk.phase ∈ legalPhases (.rdw n)
    · rw [exec_legal _ _ hp]
      cases hw : s.blk.wordAt n with
      | some w => exact ⟨.yes w, by simp only [resultOf, hw, finish_performed]⟩
      | none => exact ⟨.no, by simp only [resultOf, hw, finish_refused]⟩
    · exact ⟨.no, exec_illegal _ _ hp⟩

/-- Settles O26: a read changes the response alone, and no command reads the response. -/
theorem readsChangeNothingAndRepeat : Obligations.ReadsChangeNothingAndRepeat := fun i s h => by
  obtain ⟨r, hr⟩ := exec_read i s h
  exact ⟨_, hr, rfl, rfl, rfl, fun j => exec_resp j s (some r)⟩

end Sys2Proof.Machine
end

section
/-! The writers of the codebase (20_memory.md R43). -/

namespace Sys2Proof.Machine

/-- The codebase after a performed command: the one before it, but for `CLR` and a first load. -/
theorem resultOf_performed_cb (i : Instr) (s : State) (b : Block) (d : Word) (h : resultOf s i = .performed b d) :
    (i = .clr ∧ b = Block.reset) ∨
    (∃ a l d, i = .ldcode a l d ∧ Codebase.lookup s.blk.cb a = none ∧
      b.cb = Codebase.store s.blk.cb a (entryOperand l d)) ∨
    b.cb = s.blk.cb := by
  rcases resultOf_performed i s b d h with
    hclr | ⟨_, _, _, rfl⟩ | ⟨_, _, _, _, _, _, _, rfl⟩ | ⟨a, l, d, hi, _, _, hnone, rfl⟩ | ⟨_, b', hpack, rfl⟩ |
      ⟨_, b', hflush, rfl⟩ | ⟨_, rfl⟩
  · exact .inl hclr
  · exact .inr (.inr rfl)
  · exact .inr (.inr rfl)
  · exact .inr (.inl ⟨a, l, d, hi, hnone, rfl⟩)
  · exact .inr (.inr (packUnits_kept _ _ _ _ hpack).cb)
  · exact .inr (.inr (flush_kept _ _ _ hflush).cb)
  · exact .inr (.inr rfl)

/-- Settles O33: only a performed `CLR` or first load has another codebase afterwards, and the load writes the entry
of its own unit alone. -/
theorem codebaseChangesOnlyByClrAndLdcode : Obligations.CodebaseChangesOnlyByClrAndLdcode := by
  intro i s t u hexec hne
  rcases exec_cases i s t hexec with ⟨rfl, _⟩ | ⟨_, f, _, rfl⟩ | ⟨hlegal, b, d, hres, rfl⟩
  · exact absurd rfl hne
  · exact absurd rfl hne
  rcases resultOf_performed_cb i s b d hres with ⟨rfl, rfl⟩ | ⟨a, l, d, rfl, hnone, hcb⟩ | hcb
  · exact .inl ⟨rfl, lookup_reset u⟩
  · by_cases ha : a = u
    · subst ha
      exact .inr ⟨List.mem_singleton.1 hlegal, hnone, l, d, rfl⟩
    · exact absurd (by rw [hcb, lookup_store_other _ _ _ _ ha]) hne
  · exact absurd (by rw [hcb]) hne

end Sys2Proof.Machine
end

section
/-! Equal blocks laid end to end: the bytes and the bits of the output (20_memory.md R34, R35). -/

namespace Sys2Proof.Machine

/-- Where every element gives `n` items, item `j` of element `k` stands at `n * k + j`. -/
theorem flatMap_getElem?_of_length {α β : Type} (f : α → List β) (n : Nat) (hlen : ∀ x, (f x).length = n)
    (xs : List α) (k j : Nat) (hk : k < xs.length) (hj : j < n) :
    (xs.flatMap f)[n * k + j]? = (f xs[k])[j]? := by
  induction xs generalizing k with
  | nil => exact absurd hk (Nat.not_lt_zero k)
  | cons x xs ih =>
    rw [List.flatMap_cons]
    cases k with
    | zero => rw [List.getElem?_append_left (by rw [hlen]; omega)]; simp
    | succ k =>
      rw [List.getElem?_append_right (by rw [hlen, Nat.mul_succ]; omega), hlen]
      have hpos : n * (k + 1) + j - n = n * k + j := by rw [Nat.mul_succ]; omega
      rw [hpos]
      exact ih k (Nat.lt_of_succ_lt_succ hk)

@[simp] theorem wordBytes_length (o : Config.ByteOrder) (w : Word) : (wordBytes o w).length = 4 := by cases o <;> rfl

theorem byteImage_length (s : State) : s.byteImage.length = 4 * s.blk.out.length := by
  simp only [State.byteImage, List.length_flatMap, wordBytes_length, List.map_const', List.sum_replicate_nat]
  exact Nat.mul_comm _ _

/-- Byte `j` of word `i` stands at address `4 * i + j` (20_memory.md R35). -/
theorem byteImage_getElem? (s : State) (i j : Nat) (hi : i < s.blk.out.length) (hj : j < 4) :
    s.byteImage[4 * i + j]? = (wordBytes s.params.byteOrder s.blk.out[i])[j]? :=
  flatMap_getElem?_of_length _ 4 (wordBytes_length _) _ i j hi hj

/-- A byte of a word as a number. -/
theorem extractByte_eq (w : Word) (k : Nat) : w.extractLsb' k 8 = BitVec.ofNat 8 (w.toNat / 2 ^ k) := by
  apply BitVec.eq_of_toNat_eq
  rw [BitVec.extractLsb'_toNat, BitVec.toNat_ofNat, Nat.shiftRight_eq_div_pow]

theorem wordBytes_little (w : Word) (j : Nat) (hj : j < 4) :
    (wordBytes .little w)[j]? = some (BitVec.ofNat 8 (w.toNat / 2 ^ (8 * j))) := by
  rw [← extractByte_eq]
  match j, hj with
  | 0, _ => rfl
  | 1, _ => rfl
  | 2, _ => rfl
  | 3, _ => rfl

theorem wordBytes_big (w : Word) (j : Nat) (hj : j < 4) :
    (wordBytes .big w)[j]? = some (BitVec.ofNat 8 (w.toNat / 2 ^ (8 * (3 - j)))) := by
  rw [← extractByte_eq]
  match j, hj with
  | 0, _ => rfl
  | 1, _ => rfl
  | 2, _ => rfl
  | 3, _ => rfl

/-- Settles O43: a word's four bytes stand at its four addresses, in the order of `OUT_BYTE_ORDER`. -/
theorem byteImageFollowsTheByteOrder : Obligations.ByteImageFollowsTheByteOrder := fun s i j h hj =>
  ⟨byteImage_length s,
    fun ho => by rw [byteImage_getElem? s i j h hj, ho, wordBytes_little _ j hj],
    fun ho => by rw [byteImage_getElem? s i j h hj, ho, wordBytes_big _ j hj]⟩

/-- Bit `q` of a sequence of words stands in word `q / 32` at bit `31 - q % 32` (20_memory.md R34). -/
theorem wordsString_getElem? (ws : List Word) (q : Nat) (h : q / 32 < ws.length) :
    (wordsString ws)[q]? = some (ws[q / 32].getLsbD (31 - q % 32)) := by
  have hmod : q % 32 < 32 := Nat.mod_lt _ (by decide)
  have hblock := flatMap_getElem?_of_length wordString 32 wordString_length ws (q / 32) (q % 32) h hmod
  rw [Nat.div_add_mod] at hblock
  rw [wordsString, hblock]
  simp [wordString, BitVec.getMsbD, hmod]

end Sys2Proof.Machine
end

section
/-! Runs in which every command is performed, command by command (41_packing.md R76). -/

namespace Sys2Proof

/-- The decoder reads back what the encoder wrote (30_encoding.md R56). -/
theorem decode_encode (i : Instr) : decode (encode i) = .ok i := by
  cases i <;> simp [decode, encode, requireZero]

end Sys2Proof

namespace Sys2Proof.Machine

theorem performAll_nil (s : State) : performAll [] s = some { s with inputs := [] } := rfl

/-- The inputs a state holds before a run are replaced by the run's own. -/
theorem performAll_inputs (is : List Instr) (s : State) (rest : List Input) :
    performAll is { s with inputs := rest } = performAll is s := rfl

/-- The first command of a run is performed where it is legal, and the rest run from the block it leaves. -/
theorem performAll_cons (i : Instr) (is : List Instr) (s t : State) :
    performAll (i :: is) s = some t ↔
      s.blk.phase ∈ legalPhases i ∧ ∃ b d, resultOf s i = .performed b d ∧
        performAll is { s with blk := b, resp := some (.yes d) } = some t := by
  have hstep : step (s.present ((i :: is).map encode)) = exec i (s.present (is.map encode)) :=
    step_defined _ (encode i) _ i rfl (decode_encode i)
  have hres : resultOf (s.present (is.map encode)) i = resultOf s i := rfl
  simp only [performAll, List.length_cons, stepsOk, hstep]
  by_cases hlegal : s.blk.phase ∈ legalPhases i
  · rw [exec_legal i (s.present _) hlegal, hres]
    cases resultOf s i with
    | performed b d =>
      constructor
      · intro hrest
        exact ⟨hlegal, b, d, rfl, hrest⟩
      · rintro ⟨_, b', d', heq, hrest⟩
        cases heq
        exact hrest
    | refused => exact ⟨nofun, fun ⟨_, _, _, heq, _⟩ => nomatch heq⟩
    | raised f => exact ⟨nofun, fun ⟨_, _, _, heq, _⟩ => nomatch heq⟩
  · rw [exec_illegal i (s.present _) hlegal]
    exact ⟨nofun, fun ⟨hcontra, _⟩ => absurd hcontra hlegal⟩

/-- A run of two parts is the second part from where the first one ends. -/
theorem performAll_append (is js : List Instr) (s t : State) :
    performAll (is ++ js) s = some t ↔ ∃ m, performAll is s = some m ∧ performAll js m = some t := by
  induction is generalizing s with
  | nil => simp [performAll_nil, performAll_inputs]
  | cons i is ih =>
    simp only [List.cons_append, performAll_cons, ih]
    constructor
    · rintro ⟨hlegal, b, d, hres, m, hfirst, hsecond⟩
      exact ⟨m, ⟨hlegal, b, d, hres, hfirst⟩, hsecond⟩
    · rintro ⟨m, ⟨hlegal, b, d, hres, hfirst⟩, hsecond⟩
      exact ⟨hlegal, b, d, hres, m, hfirst, hsecond⟩

end Sys2Proof.Machine
end

section
/-! What a finished run leaves in `OUT` (20_memory.md R34, 41_packing.md R76). -/

namespace Sys2Proof.Machine

/-- What the packing commands need of a block: an open word, and entries as `LDCODE` makes them. -/
structure Ready (depth : Nat) (b : Block) : Prop where
  still : Open depth b
  entries : ∀ u e, Codebase.lookup b.cb u = some e → e.wf

/-- Whether a word is open reads `ACC`, `FILL` and `OUT` alone. -/
theorem Open.of_eq {depth : Nat} {b b' : Block} (h : Open depth b) (hacc : b'.acc = b.acc) (hfill : b'.fill = b.fill)
    (hout : b'.out = b.out) : Open depth b' :=
  ⟨by rw [hacc, hfill]; exact h.accClear, by rw [hfill]; exact h.fillLe, by rw [Block.wcount, hout]; exact h.countLe⟩

theorem ready_reset (depth : Nat) : Ready depth Block.reset :=
  ⟨⟨lowClear_zero _, by decide, Nat.zero_le _⟩, fun u e h => by rw [lookup_reset] at h; cases h⟩

/-- A legal length gives an entry of that length with no bit above it (40_setup.md R63). -/
theorem entryOperand_wf (l : Byte) (d : Code) (h1 : 1 ≤ l.toNat) (h64 : l.toNat ≤ 64) : (entryOperand l d).wf := by
  have hlen : (entryOperand l d).len.toNat = l.toNat := by
    simp only [entryOperand, BitVec.extractLsb'_toNat, Nat.shiftRight_zero]
    omega
  refine ⟨by rw [hlen]; exact h1, by rw [hlen]; exact h64, fun k hk => ?_⟩
  exact mask_clear d l.toNat h64 k (hlen ▸ hk)

theorem entries_store (cb : Codebase) (a : Byte) (e : CodeEntry) (he : e.wf)
    (hcb : ∀ u f, Codebase.lookup cb u = some f → f.wf) (u : Byte) (f : CodeEntry)
    (h : Codebase.lookup (Codebase.store cb a e) u = some f) : f.wf := by
  by_cases ha : a = u
  · subst ha
    rw [lookup_store_same] at h
    cases h
    exact he
  · rw [lookup_store_other _ _ _ _ ha] at h
    exact hcb u f h

theorem not_isPack_of_isSetup (i : Instr) (h : isSetup i = true) : isPack i = false := by
  cases i with
  | cfg a => rfl
  | ldcode a l d => rfl
  | _ => cases h

/-- A performed setup command keeps a block ready and appends no bit. -/
theorem setup_keeps_ready (i : Instr) (s : State) (b : Block) (d : Word) (depth : Nat) (hi : isSetup i = true)
    (hres : resultOf s i = .performed b d) (hready : Ready depth s.blk) : Ready depth b ∧ b.stream = s.blk.stream := by
  rcases resultOf_performed i s b d hres with
    ⟨rfl, _⟩ | ⟨_, _, _, rfl⟩ | ⟨_, _, _, _, _, _, _, rfl⟩ | ⟨a, l, d, _, h1, h64, _, rfl⟩ | ⟨hpack, _⟩ | ⟨rfl, _⟩ |
      ⟨_, rfl⟩
  · cases hi
  · exact ⟨⟨hready.still.of_eq rfl rfl rfl, hready.entries⟩, rfl⟩
  · exact ⟨⟨hready.still.of_eq rfl rfl rfl, hready.entries⟩, rfl⟩
  · exact ⟨⟨hready.still.of_eq rfl rfl rfl,
      entries_store _ a _ (entryOperand_wf l d h1 h64) hready.entries⟩, rfl⟩
  · exact absurd hpack (by simp [not_isPack_of_isSetup i hi])
  · cases hi
  · exact ⟨hready, rfl⟩

/-- A performed setup leaves a block ready and appends no bit. -/
theorem performAll_setup (setup : List Instr) (s t : State) (hsetup : ∀ i ∈ setup, isSetup i = true)
    (hrun : performAll setup s = some t) (hready : Ready s.params.outDepth s.blk) :
    t.params = s.params ∧ Ready s.params.outDepth t.blk ∧ t.blk.stream = s.blk.stream := by
  induction setup generalizing s with
  | nil =>
    cases hrun
    exact ⟨rfl, hready, rfl⟩
  | cons i is ih =>
    obtain ⟨_, b, d, hres, hrest⟩ := (performAll_cons i is s t).1 hrun
    obtain ⟨hi, his⟩ := List.forall_mem_cons.1 hsetup
    obtain ⟨hb, hstream⟩ := setup_keeps_ready i s b d _ hi hres hready
    obtain ⟨hp, ht, hs⟩ := ih _ his hrest hb
    exact ⟨hp, ht, hs.trans hstream⟩

/-- What the packing of units `us` did between two states; the phase apart, nothing else changed. -/
structure Packed (us : List Byte) (s t : State) : Prop where
  params : t.params = s.params
  cb : t.blk.cb = s.blk.cb
  w : t.blk.w = s.blk.w
  ready : Ready t.params.outDepth t.blk
  stream : t.blk.stream = s.blk.stream ++ unitsString s.blk.cb us

/-- The result of a packing command is that of its units. -/
theorem resultOf_pack (i : Instr) (s : State) (hi : isPack i = true) :
    resultOf s i = packed (packUnits s.params.outDepth (unitsOf s.blk.w i) s.blk) := by
  cases i with
  | putu a => rfl
  | putb a => rfl
  | _ => cases hi

/-- A performed packing command appends its units' codes (41_packing.md R73, R74). -/
theorem pack_appends (i : Instr) (s : State) (b : Block) (d : Word) (hi : isPack i = true)
    (hres : resultOf s i = .performed b d) (hready : Ready s.params.outDepth s.blk) :
    Packed (unitsOf s.blk.w i) s { s with blk := b, resp := some (.yes d) } := by
  rw [resultOf_pack i s hi] at hres
  obtain ⟨b', hpack, rfl, _⟩ := packed_performed _ _ _ hres
  obtain ⟨_, happ⟩ := packUnits_ok _ _ _ _ hready.still hready.entries hpack
  exact ⟨rfl, happ.kept.cb, happ.kept.w,
    ⟨happ.still.of_eq rfl rfl rfl, fun u e h => hready.entries u e (happ.kept.cb ▸ h)⟩, happ.stream⟩

/-- Performed packing commands append their units' codes in order (41_packing.md R76). -/
theorem performAll_packs (packs : List Instr) (s t : State) (hpacks : ∀ i ∈ packs, isPack i = true)
    (hrun : performAll packs s = some t) (hready : Ready s.params.outDepth s.blk) :
    Packed (packs.flatMap (unitsOf s.blk.w)) s t := by
  induction packs generalizing s with
  | nil =>
    cases hrun
    exact ⟨rfl, rfl, rfl, hready, (List.append_nil _).symm⟩
  | cons i is ih =>
    obtain ⟨_, b, d, hres, hrest⟩ := (performAll_cons i is s t).1 hrun
    obtain ⟨hi, his⟩ := List.forall_mem_cons.1 hpacks
    have hfirst := pack_appends i s b d hi hres hready
    have htail := ih _ his hrest hfirst.ready
    refine ⟨htail.params, htail.cb.trans hfirst.cb, htail.w.trans hfirst.w, htail.ready, ?_⟩
    rw [htail.stream, hfirst.stream, hfirst.cb, hfirst.w]
    simp [unitsString]

/-- An open word with no open bit is zero. -/
theorem Open.acc_eq_zero {depth : Nat} {b : Block} (h : Open depth b) (hfill : b.fill = 0) : b.acc = 0 := by
  apply BitVec.eq_of_getLsbD_eq
  intro k hk
  rw [h.accClear.bit k (by simpa [hfill] using hk)]
  exact BitVec.getLsbD_zero.symm

/-- A performed `END` closes the stream: the string of `OUT` is the stream so far and its zero-fill, and the response
is the word count (41_packing.md R75). -/
theorem performAll_end (s t : State) (hrun : performAll [.endStream] s = some t)
    (hopen : Open s.params.outDepth s.blk) :
    ∃ b, Flushed s.params.outDepth s.blk b ∧
      t = { s with blk := { b with phase := .done }, inputs := [], resp := some (.yes b.countWord) } := by
  obtain ⟨_, b, d, hres, hnil⟩ := (performAll_cons _ _ s t).1 hrun
  obtain ⟨b', hflush, rfl, rfl⟩ := closed_performed _ _ _ hres
  cases hnil
  exact ⟨b', flush_ok _ _ _ hopen hopen.acc_eq_zero hflush, rfl⟩

/-- With no open bit the stream is the string of `OUT`. -/
theorem stream_of_fill_zero (b : Block) (h : b.fill = 0) : b.stream = wordsString b.out := by
  simp [Block.stream, Block.openString, h]

/-- A run from a reset block, before `END`: its stream is its units' codes in order (41_packing.md R76). -/
theorem performAll_setup_packs (s : State) (setup packs : List Instr) (t : State) (hreset : s.blk = State.reset.blk)
    (hsetup : ∀ i ∈ setup, isSetup i = true) (hpacks : ∀ i ∈ packs, isPack i = true)
    (hrun : performAll (setup ++ packs) s = some t) :
    Ready t.params.outDepth t.blk ∧
      t.blk.stream = unitsString t.blk.cb (packs.flatMap (unitsOf t.blk.w)) := by
  obtain ⟨m, hset, hpack⟩ := (performAll_append _ _ s t).1 hrun
  have hready : Ready s.params.outDepth s.blk := hreset ▸ ready_reset _
  have hempty : s.blk.stream = [] := hreset ▸ rfl
  obtain ⟨hparams, hm, hstream⟩ := performAll_setup setup s m hsetup hset hready
  have ht := performAll_packs packs m t hpacks hpack (hparams ▸ hm)
  refine ⟨ht.ready, ?_⟩
  rw [ht.stream, ht.cb, ht.w, hstream, hempty, List.nil_append]

/-- The output of a finished run from a reset block: its units' codes in order, then the zero-fill
(41_packing.md R76). -/
theorem finishedRun_out (s : State) (setup packs : List Instr) (t : State) (hreset : s.blk = State.reset.blk)
    (hsetup : ∀ i ∈ setup, isSetup i = true) (hpacks : ∀ i ∈ packs, isPack i = true)
    (hrun : performAll (setup ++ packs ++ [.endStream]) s = some t) :
    let string := unitsString t.blk.cb (packs.flatMap (unitsOf t.blk.w))
    wordsString t.blk.out = string ++ List.replicate (32 * t.blk.wcount - string.length) false := by
  obtain ⟨m, hbody, hend⟩ := (performAll_append _ _ s t).1 hrun
  obtain ⟨hready, hstream⟩ := performAll_setup_packs s setup packs m hreset hsetup hpacks hbody
  obtain ⟨b, hb, rfl⟩ := performAll_end m t hend hready.still
  have hout := hb.stream
  rw [stream_of_fill_zero b hb.closed.1, ← stream_length, hstream, ← hb.kept.cb, ← hb.kept.w] at hout
  exact hout

/-- Settles O40: the output's bits are the string of its words, which is the units' codes and zeros. -/
theorem streamBitsStandMostSignificantFirst : Obligations.StreamBitsStandMostSignificantFirst := by
  intro s setup packs t _ hreset hsetup hpacks hrun q h
  have hout := finishedRun_out s setup packs t hreset hsetup hpacks hrun
  have hbit := wordsString_getElem? t.blk.out q h
  rw [hout] at hbit
  generalize unitsString t.blk.cb (packs.flatMap (unitsOf t.blk.w)) = string at hbit ⊢
  by_cases hq : q < string.length
  · rw [List.getElem?_append_left hq] at hbit
    rw [List.getD_eq_getElem?_getD, hbit, Option.getD_some]
  · rw [List.getElem?_append_right (by omega)] at hbit
    rw [List.getD_eq_getElem?_getD, List.getElem?_eq_none (by omega), Option.getD_none]
    exact List.eq_of_mem_replicate (List.mem_of_getElem? hbit)

end Sys2Proof.Machine
end

section
/-! Decoding and encoding as inverses, and the opcode map's rows (30_encoding.md R53, R54, R56). -/

namespace Sys2Proof

/-- A row's fields marked "0" are zero where the decoder accepts the command. -/
theorem requireZero_eq_ok {zero : Bool} {i j : Instr} : requireZero zero i = .ok j ↔ zero = true ∧ i = j := by
  cases zero <;> simp [requireZero]

/-- A command is packed from the values its fields hold. -/
theorem packFields_eq {c : Cmd} {op : BitVec 4} {a l : Byte} {d : Code} (hrsv : rsvField c = 0)
    (hop : opField c = op) (ha : aField c = a) (hl : lField c = l) (hd : dField c = d) : packFields op a l d = c := by
  subst hop ha hl hd
  exact packFields_fields c hrsv

/-- A command accepted with `A`, `L` and `D` zero is its opcode packed with no operand. -/
theorem encode_of_requireZero_operands {c : Cmd} {op : BitVec 4} {i j : Instr} (hrsv : rsvField c = 0)
    (hop : opField c = op) (h : requireZero (aField c == 0 && lField c == 0 && dField c == 0) i = .ok j)
    (henc : encode i = packFields op 0 0 0) : encode j = c := by
  obtain ⟨hzero, rfl⟩ := requireZero_eq_ok.1 h
  simp only [Bool.and_eq_true, beq_iff_eq] at hzero
  obtain ⟨⟨ha, hl⟩, hd⟩ := hzero
  exact henc.trans (packFields_eq hrsv hop ha hl hd)

/-- A command accepted with `L` and `D` zero is its opcode packed with operand `A`. -/
theorem encode_of_requireZero_length_data {c : Cmd} {op : BitVec 4} {i j : Instr} (hrsv : rsvField c = 0)
    (hop : opField c = op) (h : requireZero (lField c == 0 && dField c == 0) i = .ok j)
    (henc : encode i = packFields op (aField c) 0 0) : encode j = c := by
  obtain ⟨hzero, rfl⟩ := requireZero_eq_ok.1 h
  simp only [Bool.and_eq_true, beq_iff_eq] at hzero
  obtain ⟨hl, hd⟩ := hzero
  exact henc.trans (packFields_eq hrsv hop rfl hl hd)

/-- A command accepted as `RDW` is its opcode packed with the word index. -/
theorem encode_of_requireZero_index {c : Cmd} {j : Instr} (hrsv : rsvField c = 0) (hop : opField c = 0xB)
    (h : requireZero (aField c == 0 && lField c == 0 && dHighField c == 0) (.rdw (idxField c)) = .ok j) :
    encode j = c := by
  obtain ⟨hzero, rfl⟩ := requireZero_eq_ok.1 h
  simp only [Bool.and_eq_true, beq_iff_eq] at hzero
  obtain ⟨⟨ha, hl⟩, hhigh⟩ := hzero
  exact packFields_eq hrsv hop ha hl (hhigh ▸ dField_halves c)

/-- A command that decodes is the encoding of what it decodes to (30_encoding.md R56). -/
theorem encode_of_decode (c : Cmd) (i : Instr) (h : decode c = .ok i) : encode i = c := by
  unfold decode at h
  split at h
  · cases h
  next hreserved =>
  have hrsv : rsvField c = 0 := by simpa using hreserved
  split at h
  next hclr => exact encode_of_requireZero_operands hrsv hclr h rfl
  split at h
  next hcfg => exact encode_of_requireZero_length_data hrsv hcfg h rfl
  split at h
  next hldcode =>
    cases h
    exact packFields_eq hrsv hldcode rfl rfl rfl
  split at h
  next hputu => exact encode_of_requireZero_length_data hrsv hputu h rfl
  split at h
  next hputb => exact encode_of_requireZero_length_data hrsv hputb h rfl
  split at h
  next hend => exact encode_of_requireZero_operands hrsv hend h rfl
  split at h
  next hrdst => exact encode_of_requireZero_operands hrsv hrdst h rfl
  split at h
  next hrderr => exact encode_of_requireZero_operands hrsv hrderr h rfl
  split at h
  next hrdcnt => exact encode_of_requireZero_operands hrsv hrdcnt h rfl
  split at h
  next hrdw => exact encode_of_requireZero_index hrsv hrdw h
  · cases h

/-- Settles O1: the decoder reads back each encoding, and accepts nothing but encodings. -/
theorem encodeAndDecodeAreInverse : Obligations.EncodeAndDecodeAreInverse := ⟨decode_encode, encode_of_decode⟩

theorem decode_eq_ok_iff (c : Cmd) (i : Instr) : decode c = .ok i ↔ encode i = c :=
  ⟨encode_of_decode c i, fun h => h ▸ decode_encode i⟩

/-- Every row's mask takes `OP` and `RSV` whole, and its match is the opcode with zero in every other field: what is
left to compare is the mask's part of the three operands. -/
theorem masked_iff_operands (c m : Cmd) (op : BitVec 4) (hop : opField m = BitVec.allOnes 4)
    (hrsv : rsvField m = BitVec.allOnes 12) :
    c &&& m = packFields op 0 0 0 ↔ opField c = op ∧ rsvField c = 0 ∧
      aField c &&& aField m = 0 ∧ lField c &&& lField m = 0 ∧ dField c &&& dField m = 0 := by
  rw [masked_iff_fields, hop, hrsv, BitVec.and_allOnes, BitVec.and_allOnes, opField_packFields, rsvField_packFields,
    aField_packFields, lField_packFields, dField_packFields]

/-- A row without operands: the mask is all ones. -/
theorem decode_iff_masked_whole (i : Instr) (c : Cmd) :
    decode c = .ok i ↔ c &&& 0xFFFFFFFFFFFFFFFFFFFFFFFF = encode i := by
  have hall : (0xFFFFFFFFFFFFFFFFFFFFFFFF : Cmd) = BitVec.allOnes 96 := by decide
  rw [decode_eq_ok_iff, hall, BitVec.and_allOnes, eq_comm]

/-- A row with operand `A` alone: the mask leaves out bits 79:72. -/
theorem decode_iff_masked_a (mk : Byte → Instr) (op : BitVec 4) (henc : ∀ a, encode (mk a) = packFields op a 0 0)
    (c : Cmd) :
    (∃ a, decode c = .ok (mk a)) ↔ c &&& 0xFFFF00FFFFFFFFFFFFFFFFFF = packFields op 0 0 0 := by
  have ha : aField 0xFFFF00FFFFFFFFFFFFFFFFFF = 0 := by decide
  have hl : lField 0xFFFF00FFFFFFFFFFFFFFFFFF = BitVec.allOnes 8 := by decide
  have hd : dField 0xFFFF00FFFFFFFFFFFFFFFFFF = BitVec.allOnes 64 := by decide
  rw [masked_iff_operands _ _ _ (by decide) (by decide), ha, hl, hd, BitVec.and_allOnes, BitVec.and_allOnes]
  simp only [decode_eq_ok_iff, henc]
  constructor
  · rintro ⟨a, rfl⟩
    simp
  · rintro ⟨hop, hrsv, _, hlen, hdata⟩
    exact ⟨_, packFields_eq hrsv hop rfl hlen hdata⟩

/-- The row of `LDCODE`: the mask leaves out `A`, `L` and `D`. -/
theorem decode_ldcode_iff_masked (c : Cmd) :
    (∃ a l d, decode c = .ok (.ldcode a l d)) ↔ c &&& 0xFFFF00000000000000000000 = packFields 0x3 0 0 0 := by
  have ha : aField 0xFFFF00000000000000000000 = 0 := by decide
  have hl : lField 0xFFFF00000000000000000000 = 0 := by decide
  have hd : dField 0xFFFF00000000000000000000 = 0 := by decide
  rw [masked_iff_operands _ _ _ (by decide) (by decide), ha, hl, hd]
  simp only [decode_eq_ok_iff, encode]
  constructor
  · rintro ⟨a, l, d, rfl⟩
    simp
  · rintro ⟨hop, hrsv, _⟩
    exact ⟨_, _, _, packFields_eq hrsv hop rfl rfl rfl⟩

/-- The high half of the data word is zero exactly when the mask of that half finds it so. -/
theorem dField_and_high_eq_zero_iff (c : Cmd) :
    dField c &&& (BitVec.allOnes 32 ++ (0 : BitVec 32)) = 0 ↔ dHighField c = 0 := by
  have hzero : (0 : Code) = (0 : BitVec 32) ++ (0 : BitVec 32) := by decide
  have hlow : idxField c &&& 0 = 0 := BitVec.and_zero
  rw [dField_halves, BitVec.and_append, BitVec.and_allOnes, hlow, hzero, BitVec.append_left_inj]

/-- The row of `RDW`: the mask leaves out `D[31:0]`. -/
theorem decode_rdw_iff_masked (c : Cmd) :
    (∃ i, decode c = .ok (.rdw i)) ↔ c &&& 0xFFFFFFFFFFFFFFFF00000000 = packFields 0xB 0 0 0 := by
  have ha : aField 0xFFFFFFFFFFFFFFFF00000000 = BitVec.allOnes 8 := by decide
  have hl : lField 0xFFFFFFFFFFFFFFFF00000000 = BitVec.allOnes 8 := by decide
  have hd : dField 0xFFFFFFFFFFFFFFFF00000000 = BitVec.allOnes 32 ++ (0 : BitVec 32) := by decide
  rw [masked_iff_operands _ _ _ (by decide) (by decide), ha, hl, hd, BitVec.and_allOnes, BitVec.and_allOnes,
    dField_and_high_eq_zero_iff]
  simp only [decode_eq_ok_iff, encode]
  constructor
  · rintro ⟨i, rfl⟩
    simp
  · rintro ⟨hop, hrsv, hunit, hlen, hhigh⟩
    exact ⟨_, packFields_eq hrsv hop hunit hlen (hhigh ▸ dField_halves c)⟩

/-- An encoded command matches the row of its mnemonic. -/
theorem row_matches_encode (i : Instr) : i.row.matches (encode i) := by
  cases i with
  | clr => exact Laws.EncodedInItsRow.clr
  | cfg a => exact Laws.EncodedInItsRow.cfg a
  | ldcode a l d => exact Laws.EncodedInItsRow.ldcode a l d
  | putu a => exact Laws.EncodedInItsRow.putu a
  | putb a => exact Laws.EncodedInItsRow.putb a
  | endStream => exact Laws.EncodedInItsRow.endStream
  | rdst => exact Laws.EncodedInItsRow.rdst
  | rderr => exact Laws.EncodedInItsRow.rderr
  | rdcnt => exact Laws.EncodedInItsRow.rdcnt
  | rdw i => exact Laws.EncodedInItsRow.rdw i

/-- A command that matches a mnemonic's row decodes. -/
theorem decode_of_row_matches (i : Instr) (c : Cmd) (h : i.row.matches c) : ∃ j, decode c = .ok j := by
  cases i with
  | clr => exact ⟨_, (decode_iff_masked_whole .clr c).2 h⟩
  | cfg _ => exact ((decode_iff_masked_a .cfg 0x2 (fun _ => rfl) c).2 h).imp' .cfg fun _ => id
  | ldcode _ _ _ =>
    obtain ⟨_, _, _, hdec⟩ := (decode_ldcode_iff_masked c).2 h
    exact ⟨_, hdec⟩
  | putu _ => exact ((decode_iff_masked_a .putu 0x4 (fun _ => rfl) c).2 h).imp' .putu fun _ => id
  | putb _ => exact ((decode_iff_masked_a .putb 0x5 (fun _ => rfl) c).2 h).imp' .putb fun _ => id
  | endStream => exact ⟨_, (decode_iff_masked_whole .endStream c).2 h⟩
  | rdst => exact ⟨_, (decode_iff_masked_whole .rdst c).2 h⟩
  | rderr => exact ⟨_, (decode_iff_masked_whole .rderr c).2 h⟩
  | rdcnt => exact ⟨_, (decode_iff_masked_whole .rdcnt c).2 h⟩
  | rdw _ => exact ((decode_rdw_iff_masked c).2 h).imp' .rdw fun _ => id

/-- A command is an undefined encoding exactly when it matches no row (30_encoding.md R54). -/
theorem decode_error_iff_no_row (c : Cmd) : (∃ r, decode c = .error r) ↔ ∀ i : Instr, ¬ i.row.matches c := by
  constructor
  · rintro ⟨r, herr⟩ i hrow
    obtain ⟨j, hok⟩ := decode_of_row_matches i c hrow
    exact nomatch herr.symm.trans hok
  · intro hnone
    cases hdec : decode c with
    | error r => exact ⟨r, rfl⟩
    | ok i => exact absurd (encode_of_decode c i hdec ▸ row_matches_encode i) (hnone i)

/-- Settles O2: each mnemonic's row by its mask, and the undefined encodings by the rows together. -/
theorem decodingFollowsTheOpcodeMap : Obligations.DecodingFollowsTheOpcodeMap := fun c =>
  ⟨decode_iff_masked_whole .clr c,
    decode_iff_masked_a .cfg 0x2 (fun _ => rfl) c,
    decode_ldcode_iff_masked c,
    decode_iff_masked_a .putu 0x4 (fun _ => rfl) c,
    decode_iff_masked_a .putb 0x5 (fun _ => rfl) c,
    decode_iff_masked_whole .endStream c,
    decode_iff_masked_whole .rdst c,
    decode_iff_masked_whole .rderr c,
    decode_iff_masked_whole .rdcnt c,
    decode_rdw_iff_masked c,
    decode_error_iff_no_row c⟩

end Sys2Proof
end

section
/-! What `CFG` and `LDCODE` do, in every phase and for every operand (40_setup.md R62, R63). -/

namespace Sys2Proof.Machine

/-- A legal command whose result is performed answers `ok` = 1 and gives the result's block. -/
theorem exec_performed {i : Instr} {s : State} {b : Block} {d : Data} (hlegal : s.blk.phase ∈ legalPhases i)
    (hres : resultOf s i = .performed b d) : exec i s = .next { s with blk := b, resp := some (.yes d) } := by
  rw [exec_legal _ _ hlegal, hres, finish_performed]

/-- A legal command whose result is a fault takes fault entry from the block before it. -/
theorem exec_raised {i : Instr} {s : State} {f : ErrorCode} (hlegal : s.blk.phase ∈ legalPhases i)
    (hres : resultOf s i = .raised f) : exec i s = .next { s with blk := s.blk.raise f, resp := some .no } := by
  rw [exec_legal _ _ hlegal, hres, finish_raised]

theorem mem_legalPhases_cfg (p : Phase) (a : Byte) : p ∈ legalPhases (.cfg a) ↔ p = .load := List.mem_singleton

theorem mem_legalPhases_ldcode (p : Phase) (a l : Byte) (d : Code) : p ∈ legalPhases (.ldcode a l d) ↔ p = .load :=
  List.mem_singleton

/-! The result of `CFG`: the two widths, and every other operand. -/

theorem resultOf_cfg_width (a : Byte) (s : State) (ha : a = 4 ∨ a = 8) :
    resultOf s (.cfg a) = .performed { s.blk with w := widthOperand a } 0 :=
  if_pos ((mem_unitWidths a).2 ha)

theorem resultOf_cfg_unsupported (a : Byte) (s : State) (h4 : a ≠ 4) (h8 : a ≠ 8) :
    resultOf s (.cfg a) = .raised .unsupportedFeature :=
  if_neg (mt (mem_unitWidths a).1 (not_or.2 ⟨h4, h8⟩))

/-- Settles O10: legal only in LOAD, where the operand is 4, 8 or raises `UnsupportedFeature`. -/
theorem cfgSetsTheWidthOrFaults : Obligations.CfgSetsTheWidthOrFaults := by
  intro a s
  have hlegal := mem_legalPhases_cfg s.blk.phase a
  refine ⟨fun hload ha => ?_, fun hload ha => ?_, fun hload h4 h8 => ?_, fun hphase => ?_⟩
  · subst ha
    exact exec_performed (hlegal.2 hload) (resultOf_cfg_width 4 s (.inl rfl))
  · subst ha
    exact exec_performed (hlegal.2 hload) (resultOf_cfg_width 8 s (.inr rfl))
  · exact exec_raised (hlegal.2 hload) (resultOf_cfg_unsupported a s h4 h8)
  · exact exec_illegal _ _ (mt hlegal.1 hphase)

/-! The result of `LDCODE`: the length checks, then the duplicate check. -/

theorem resultOf_ldcode_zero (a l : Byte) (d : Code) (s : State) (hl : l.toNat = 0) :
    resultOf s (.ldcode a l d) = .raised .badTreeGiven :=
  if_pos hl

theorem resultOf_ldcode_tooLong (a l : Byte) (d : Code) (s : State) (hl : 64 < l.toNat) :
    resultOf s (.ldcode a l d) = .raised .maxCodeLengthReached := by
  have hpos : l.toNat ≠ 0 := by omega
  exact (if_neg hpos).trans (if_pos hl)

/-- With a legal length the duplicate check alone decides. -/
theorem resultOf_ldcode_legalLength (a l : Byte) (d : Code) (s : State) (h1 : 1 ≤ l.toNat) (h64 : l.toNat ≤ 64) :
    resultOf s (.ldcode a l d) =
      if (Codebase.lookup s.blk.cb a).isSome then .performed { s.blk with dup := true } 0
      else .performed { s.blk with cb := Codebase.store s.blk.cb a (entryOperand l d) } 0 :=
  (if_neg (Nat.ne_of_gt h1)).trans (if_neg (Nat.not_lt.2 h64))

theorem resultOf_ldcode_duplicate (a l : Byte) (d : Code) (s : State) (e : CodeEntry) (h1 : 1 ≤ l.toNat)
    (h64 : l.toNat ≤ 64) (hentry : Codebase.lookup s.blk.cb a = some e) :
    resultOf s (.ldcode a l d) = .performed { s.blk with dup := true } 0 := by
  rw [resultOf_ldcode_legalLength a l d s h1 h64, hentry]
  rfl

theorem resultOf_ldcode_first (a l : Byte) (d : Code) (s : State) (h1 : 1 ≤ l.toNat)
    (h64 : l.toNat ≤ 64) (hentry : Codebase.lookup s.blk.cb a = none) :
    resultOf s (.ldcode a l d) =
      .performed { s.blk with cb := Codebase.store s.blk.cb a (entryOperand l d) } 0 := by
  rw [resultOf_ldcode_legalLength a l d s h1 h64, hentry]
  rfl

/-! The entry `LDCODE` stores. -/

/-- A legal length fits the seven bits of the stored one. -/
theorem entryOperand_len (l : Byte) (d : Code) (h64 : l.toNat ≤ 64) : (entryOperand l d).len.toNat = l.toNat := by
  simp only [entryOperand, BitVec.extractLsb'_toNat, Nat.shiftRight_zero]
  omega

/-- The low `L` bits of `D` are stored and the others dropped (40_setup.md R63 (b)). -/
theorem entryOperand_code_getLsbD (l : Byte) (d : Code) (k : Nat) (h64 : l.toNat ≤ 64) :
    (entryOperand l d).code.getLsbD k = (decide (k < l.toNat) && d.getLsbD k) := by
  simp only [entryOperand, BitVec.getLsbD_and, ones_getLsbD _ _ h64, Bool.and_comm]

/-- Settles O11: legal only in LOAD, where the length checks come first, a unit that has an entry keeps it, and one
that has none gets the operands' entry, which the codebase's read rules show. -/
theorem ldcodeLoadsTheFirstCode : Obligations.LdcodeLoadsTheFirstCode := by
  intro a l d s
  have hlegal := mem_legalPhases_ldcode s.blk.phase a l d
  refine ⟨fun hload hl => ?_, fun hload hl => ?_, fun hload h1 h64 hentry => ?_, fun hload h1 h64 hentry => ?_,
    fun hphase => ?_⟩
  · exact exec_raised (hlegal.2 hload) (resultOf_ldcode_zero a l d s hl)
  · exact exec_raised (hlegal.2 hload) (resultOf_ldcode_tooLong a l d s hl)
  · obtain ⟨e, he⟩ := hentry
    exact exec_performed (hlegal.2 hload) (resultOf_ldcode_duplicate a l d s e h1 h64 he)
  · exact ⟨_, entryOperand l d, exec_performed (hlegal.2 hload) (resultOf_ldcode_first a l d s h1 h64 hentry),
      lookup_store_same _ _ _, entryOperand_len l d h64, fun k => entryOperand_code_getLsbD l d k h64,
      fun u hu => lookup_store_other _ _ _ _ hu.symm⟩
  · exact exec_illegal _ _ (mt hlegal.1 hphase)

end Sys2Proof.Machine
end

section
/-! What the read commands answer (42_readback.md R85 to R88). -/

namespace Sys2Proof.Machine

/-! The answered words as numbers. -/

theorem toNat_append_eq_add {m n : Nat} (x : BitVec m) (y : BitVec n) : (x ++ y).toNat = x.toNat * 2 ^ n + y.toNat := by
  rw [BitVec.toNat_append, ← Nat.shiftLeft_add_eq_or_of_lt y.isLt, Nat.shiftLeft_eq]

/-- The status word is its four fields, each at its own weight (42_readback.md R85). -/
theorem statusWord_toNat (b : Block) :
    b.statusWord.toNat = b.fill.toNat * 256 + b.w.toNat * 16 + b.dup.toNat * 4 + b.phase.code.toNat := by
  have hzero : (0#1).toNat = 0 := rfl
  rw [Block.statusWord, BitVec.toNat_setWidth_of_le (by decide)]
  simp only [toNat_append_eq_add, BitVec.toNat_ofBool, hzero]
  omega

/-- Each bit range of the status word's table, read as a number (42_readback.md R85). -/
theorem statusWord_fields (b : Block) :
    b.statusWord.toNat % 4 = b.phase.code.toNat ∧ b.statusWord.toNat / 4 % 2 = b.dup.toNat ∧
      b.statusWord.toNat / 8 % 2 = 0 ∧ b.statusWord.toNat / 16 % 16 = b.w.toNat ∧
      b.statusWord.toNat / 256 % 64 = b.fill.toNat ∧ b.statusWord.toNat / 16384 = 0 := by
  have hphase : b.phase.code.toNat < 4 := b.phase.code.isLt
  have hdup : b.dup.toNat < 2 := b.dup.toNat_lt
  have hw : b.w.toNat < 16 := b.w.isLt
  have hfill : b.fill.toNat < 64 := b.fill.isLt
  rw [statusWord_toNat]
  omega

theorem errWord_toNat (b : Block) : b.errWord.toNat = b.err.toNat := BitVec.toNat_setWidth_of_le (by decide)

/-- The word count is at most `OUT_DEPTH`, so it fits 32 bits (41_packing.md R80). -/
theorem State.Inv.countWord_toNat {s : State} (h : s.Inv) : s.blk.countWord.toNat = s.blk.wcount := by
  have hcount : s.blk.wcount ≤ s.params.outDepth := h.block.countLe
  have hdepth : s.params.outDepth ≤ 4294967295 := h.params.2
  have hfits : s.blk.wcount < 2 ^ 32 := by omega
  rw [Block.countWord, BitVec.toNat_ofNat, Nat.mod_eq_of_lt hfits]

/-! What the invariant says of the fields that are read. -/

theorem Block.Inv.w_toNat {depth : Nat} {b : Block} (h : b.Inv depth) : b.w.toNat = 4 ∨ b.w.toNat = 8 :=
  h.width.imp (congrArg BitVec.toNat) (congrArg BitVec.toNat)

theorem Block.Inv.fill_toNat_eq_zero {depth : Nat} {b : Block} (h : b.Inv depth) (hphase : b.phase ≠ .pack) :
    b.fill.toNat = 0 :=
  congrArg BitVec.toNat (h.closedEmpty hphase).1

theorem Block.Inv.errWord_eq_zero {depth : Nat} {b : Block} (h : b.Inv depth) (hphase : b.phase ≠ .fault) :
    b.errWord = 0 := by
  have herr : b.err = 0 := Decidable.not_not.1 (mt h.errFault.1 hphase)
  rw [Block.errWord, herr]
  rfl

theorem Block.Inv.countWord_eq_zero {depth : Nat} {b : Block} (h : b.Inv depth)
    (hphase : b.phase = .load ∨ b.phase = .fault) : b.countWord = 0 := by
  have hout : b.out = [] := h.countZero hphase
  rw [Block.countWord, Block.wcount, hout]
  rfl

/-! The commands legal in every phase. -/

theorem exec_rdst (s : State) : exec .rdst s = .next { s with resp := some (.yes s.blk.statusWord) } :=
  exec_performed (mem_everyPhase _) rfl

theorem exec_rderr (s : State) : exec .rderr s = .next { s with resp := some (.yes s.blk.errWord) } :=
  exec_performed (mem_everyPhase _) rfl

theorem exec_rdcnt (s : State) : exec .rdcnt s = .next { s with resp := some (.yes s.blk.countWord) } :=
  exec_performed (mem_everyPhase _) rfl

/-- Settles O22: the answer is the status word, whose fields are read off its bit ranges and bounded by the
invariant. -/
theorem rdstShowsEveryField : Obligations.RdstShowsEveryField := by
  intro s
  obtain ⟨hphase, hdup, hreserved, hw, hfill, hhigh⟩ := statusWord_fields s.blk
  refine ⟨s.blk.statusWord, exec_rdst s, ?_, hdup, hreserved, hw, hfill, hhigh, fun hinv => ?_⟩
  · rw [hphase]
    cases s.blk.phase <;> rfl
  · rw [hw, hfill]
    exact ⟨hinv.block.w_toNat, hinv.block.fillLe, hinv.block.fill_toNat_eq_zero⟩

/-- Settles O23: the answer is `ERR` zero-extended, and a code other than 0 stands only in FAULT. -/
theorem rderrAnswersTheStickyCode : Obligations.RderrAnswersTheStickyCode := fun s =>
  ⟨s.blk.errWord, exec_rderr s, errWord_toNat s.blk, fun hinv => hinv.block.errWord_eq_zero⟩

/-- Settles O24: the answer is the word count, which fits and is 0 where `OUT` is empty. -/
theorem rdcntAnswersTheWordCount : Obligations.RdcntAnswersTheWordCount := fun s hinv =>
  ⟨s.blk.countWord, exec_rdcnt s, hinv.countWord_toNat, hinv.block.countWord_eq_zero⟩

/-! `RDW`, legal only in DONE. -/

/-- A legal command whose result is a refusal changes nothing but the response. -/
theorem exec_refused {i : Instr} {s : State} (hlegal : s.blk.phase ∈ legalPhases i)
    (hres : resultOf s i = .refused) : exec i s = .next { s with resp := some .no } := by
  rw [exec_legal _ _ hlegal, hres, finish_refused]

theorem mem_legalPhases_rdw (p : Phase) (i : Word) : p ∈ legalPhases (.rdw i) ↔ p = .done := List.mem_singleton

theorem resultOf_rdw_finished (i : Word) (s : State) (h : i.toNat < s.blk.wcount) :
    resultOf s (.rdw i) = .performed s.blk s.blk.out[i.toNat] := by
  have hword : s.blk.wordAt i = some s.blk.out[i.toNat] := List.getElem?_eq_getElem h
  simp only [resultOf, hword]

theorem resultOf_rdw_beyond (i : Word) (s : State) (h : s.blk.wcount ≤ i.toNat) :
    resultOf s (.rdw i) = .refused := by
  have hword : s.blk.wordAt i = none := List.getElem?_eq_none h
  simp only [resultOf, hword]

/-- Settles O25: legal only in DONE, where the index is below the count or the command is refused. -/
theorem rdwAnswersAFinishedWord : Obligations.RdwAnswersAFinishedWord := by
  intro i s
  have hlegal := mem_legalPhases_rdw s.blk.phase i
  refine ⟨fun hdone hlt => ?_, fun hdone hle => ?_, fun hphase => ?_⟩
  · exact exec_performed (hlegal.2 hdone) (resultOf_rdw_finished i s hlt)
  · exact exec_refused (hlegal.2 hdone) (resultOf_rdw_beyond i s hle)
  · exact exec_illegal _ _ (mt hlegal.1 hphase)

end Sys2Proof.Machine
end

section
/-! What a step can do, said once; the commands refused, and what a closed phase lets through (60_exceptions.md R93,
R95). -/

namespace Sys2Proof.Machine

/-- A step that answers a next state took `rst`, an undefined encoding or the encoding of a command. -/
theorem step_cases (s t : State) (h : step s = .next t) :
    (∃ rest, s.inputs = .rst :: rest ∧ t = ({ s with inputs := rest } : State).hardReset) ∨
    (∃ c rest, s.inputs = .command c :: rest ∧ t = { s with inputs := rest, resp := some .no }) ∨
    (∃ i rest, s.inputs = .command (encode i) :: rest ∧ exec i { s with inputs := rest } = .next t) := by
  cases hin : s.inputs with
  | nil => simp [step, hin] at h
  | cons x rest =>
    cases x with
    | rst =>
      simp only [step, hin] at h
      cases h
      exact .inl ⟨rest, rfl, rfl⟩
    | command c =>
      cases hdec : decode c with
      | error r =>
        rw [step_undefined s c rest r hin hdec] at h
        cases h
        exact .inr (.inl ⟨c, rest, rfl, rfl⟩)
      | ok i =>
        rw [step_defined s c rest i hin hdec] at h
        exact .inr (.inr ⟨i, rest, by rw [encode_of_decode c i hdec], h⟩)

/-! Refusals. -/

/-- In a phase in which a command is legal, only `RDW` refuses, and only beyond the count (42_readback.md R88). -/
theorem resultOf_refused_iff (i : Instr) (s : State) :
    resultOf s i = .refused ↔ ∃ n, i = .rdw n ∧ s.blk.wcount ≤ n.toNat := by
  constructor
  · intro h
    cases i with
    | rdw n =>
      refine ⟨n, rfl, Nat.le_of_not_lt fun hlt => ?_⟩
      rw [resultOf_rdw_finished n s hlt] at h
      cases h
    | putu a => exact absurd h (packed_ne_refused _)
    | putb a => exact absurd h (packed_ne_refused _)
    | endStream => exact absurd h (closed_ne_refused _)
    | cfg a => simp only [resultOf] at h; split at h <;> cases h
    | ldcode a l d =>
      simp only [resultOf] at h
      split at h
      · cases h
      · split at h
        · cases h
        · split at h <;> cases h
    | clr => cases h
    | rdst => cases h
    | rderr => cases h
    | rdcnt => cases h
  · rintro ⟨n, rfl, hle⟩
    exact resultOf_rdw_beyond n s hle

/-- A command that could fault is not legal in FAULT, so faults do not nest (60_exceptions.md R95). -/
theorem phase_ne_fault_of_raised {i : Instr} {s : State} {f : ErrorCode} (hlegal : s.blk.phase ∈ legalPhases i)
    (hres : resultOf s i = .raised f) : s.blk.phase ≠ .fault := by
  intro hfault
  cases i with
  | clr | rdst | rderr | rdcnt => cases hres
  | cfg a | ldcode a l d | putu a | putb a | endStream | rdw n => simp [hfault, legalPhases] at hlegal

/-- A command changes nothing and answers (0, 0) exactly where the frame or its own rule refuses it: a fault changes
the phase, and a performed command answers `ok` = 1. -/
theorem exec_refused_iff (i : Instr) (s : State) :
    exec i s = .next { s with resp := some .no } ↔
      s.blk.phase ∉ legalPhases i ∨ ∃ n, i = .rdw n ∧ s.blk.wcount ≤ n.toNat := by
  rw [← resultOf_refused_iff]
  constructor
  · intro h
    rcases exec_cases i s _ h with ⟨_, hcause⟩ | ⟨hlegal, f, hres, heq⟩ | ⟨_, b, d, _, heq⟩
    · exact hcause
    · have hphase : s.blk.phase = .fault := congrArg (fun t => t.blk.phase) heq
      exact absurd hphase (phase_ne_fault_of_raised hlegal hres)
    · have hresp : some Response.no = some (.yes d) := congrArg State.resp heq
      cases hresp
  · intro hcause
    by_cases hlegal : s.blk.phase ∈ legalPhases i
    · exact exec_refused hlegal (hcause.resolve_left (not_not_intro hlegal))
    · exact exec_illegal i s hlegal

/-- The phases in which no stream may be written. -/
theorem not_mem_load_pack (p : Phase) : p ∉ [Phase.load, .pack] ↔ p = .done ∨ p = .fault := by
  cases p <;> simp

/-- Settles O28: an undefined encoding is always refused; a command is where its phase is not legal, and `RDW` beyond
the count. -/
theorem refusalsAreExactlyTheListed : Obligations.RefusalsAreExactlyTheListed := by
  intro s c rest hin
  cases hdec : decode c with
  | error r => exact iff_of_true (step_undefined s c rest r hin hdec) trivial
  | ok i =>
    rw [step_defined s c rest i hin hdec]
    refine (exec_refused_iff i { s with inputs := rest }).trans ?_
    cases i with
    | putu a | putb a | endStream => simpa [legalPhases] using not_mem_load_pack s.blk.phase
    | cfg a | ldcode a l d | rdw n => simp [legalPhases]
    | clr | rdst | rderr | rdcnt => simp [legalPhases, mem_everyPhase]

/-! The closed phases, DONE and FAULT. -/

/-- In DONE and FAULT a command is `CLR`, a read or not legal. -/
theorem legal_when_closed {i : Instr} {p : Phase} (hclosed : p = .done ∨ p = .fault) (hlegal : p ∈ legalPhases i) :
    i = .clr ∨ i = .rdst ∨ i = .rderr ∨ i = .rdcnt ∨ ∃ n, i = .rdw n := by
  cases i with
  | cfg a | ldcode a l d | putu a | putb a | endStream => rcases hclosed with rfl | rfl <;> simp [legalPhases] at hlegal
  | clr | rdst | rderr | rdcnt | rdw n => simp

/-- In DONE and FAULT a command other than `CLR` changes no element. -/
theorem exec_closed (i : Instr) (s t : State) (hclosed : s.blk.phase = .done ∨ s.blk.phase = .fault)
    (h : exec i s = .next t) : t.blk = s.blk ∨ (t.blk = Block.reset ∧ i = .clr) := by
  by_cases hlegal : s.blk.phase ∈ legalPhases i
  · rcases legal_when_closed hclosed hlegal with rfl | hread
    · rw [exec_clr] at h
      cases h
      exact .inr ⟨rfl, rfl⟩
    · obtain ⟨r, hr⟩ := exec_read i s hread
      rw [hr] at h
      cases h
      exact .inl rfl
  · rw [exec_illegal i s hlegal] at h
    cases h
    exact .inl rfl

/-- From DONE and FAULT every step changes no element, or is `CLR` or `rst` and gives the reset block. -/
theorem step_closed (s t : State) (hclosed : s.blk.phase = .done ∨ s.blk.phase = .fault) (h : step s = .next t) :
    t.blk = s.blk ∨
    (t.blk = State.reset.blk ∧ ∃ rest, s.inputs = .rst :: rest ∨ s.inputs = .command (encode .clr) :: rest) := by
  rcases step_cases s t h with ⟨rest, hin, rfl⟩ | ⟨c, rest, _, rfl⟩ | ⟨i, rest, hin, hexec⟩
  · exact .inr ⟨rfl, rest, .inl hin⟩
  · exact .inl rfl
  · rcases exec_closed i { s with inputs := rest } t hclosed hexec with hsame | ⟨hreset, rfl⟩
    · exact .inl hsame
    · exact .inr ⟨hreset, rest, .inr hin⟩

/-- Settles O31: FAULT is a closed phase. -/
theorem onlyClrAndResetLeaveFault : Obligations.OnlyClrAndResetLeaveFault := fun s t hfault h =>
  step_closed s t (.inr hfault) h

end Sys2Proof.Machine
end

section
/-! Fault entry and the two output signals (60_exceptions.md R92, R96). -/

namespace Sys2Proof.Machine

/-- The phase after a performed command: `CLR`, the packing commands and `END` set it, the others keep it
(10_state.md R20). -/
theorem resultOf_performed_phase (i : Instr) (s : State) (b : Block) (d : Word) (h : resultOf s i = .performed b d) :
    (i = .clr ∧ b.phase = .load) ∨ (isPack i = true ∧ b.phase = .pack) ∨ (i = .endStream ∧ b.phase = .done) ∨
    b.phase = s.blk.phase := by
  rcases resultOf_performed i s b d h with
    ⟨rfl, rfl⟩ | ⟨_, _, _, rfl⟩ | ⟨_, _, _, _, _, _, _, rfl⟩ | ⟨_, _, _, _, _, _, _, rfl⟩ | ⟨hpack, _, _, rfl⟩ |
      ⟨rfl, _, _, rfl⟩ | ⟨_, rfl⟩
  · exact .inl ⟨rfl, rfl⟩
  · exact .inr (.inr (.inr rfl))
  · exact .inr (.inr (.inr rfl))
  · exact .inr (.inr (.inr rfl))
  · exact .inr (.inl ⟨hpack, rfl⟩)
  · exact .inr (.inr (.inl ⟨rfl, rfl⟩))
  · exact .inr (.inr (.inr rfl))

/-- The five faults the block raises (60_exceptions.md R91). -/
theorem raised_codes {i : Instr} {s : State} {f : ErrorCode} (h : resultOf s i = .raised f) :
    f = .badTreeGiven ∨ f = .maxCodeLengthReached ∨ f = .unsupportedFeature ∨ f = .codebaseMissingEntry ∨
      f = .outputOverflow := by
  rcases resultOf_raised i s f h with ⟨hf, _⟩ | ⟨hf, _⟩ | ⟨hf, _⟩ | ⟨_, hpack⟩ | ⟨_, hf, _⟩
  · exact .inl hf
  · exact .inr (.inl hf)
  · exact .inr (.inr (.inl hf))
  · exact .inr (.inr (.inr (packUnits_error _ _ _ _ hpack)))
  · exact .inr (.inr (.inr (.inr hf)))

/-- A command that enters FAULT raised a fault: a refusal keeps the phase, and no performed command sets it to
FAULT. -/
theorem exec_enters_fault (i : Instr) (s t : State) (h : exec i s = .next t) (hs : s.blk.phase ≠ .fault)
    (ht : t.blk.phase = .fault) :
    ∃ f, resultOf s i = .raised f ∧ t = { s with blk := s.blk.raise f, resp := some .no } := by
  rcases exec_cases i s t h with ⟨rfl, _⟩ | ⟨_, f, hres, ht'⟩ | ⟨_, b, d, hres, rfl⟩
  · exact absurd ht hs
  · exact ⟨f, hres, ht'⟩
  · have hb : b.phase = .fault := ht
    rcases resultOf_performed_phase i s b d hres with ⟨_, hp⟩ | ⟨_, hp⟩ | ⟨_, hp⟩ | hp
    · cases hb.symm.trans hp
    · cases hb.symm.trans hp
    · cases hb.symm.trans hp
    · exact absurd (hp.symm.trans hb) hs

/-- Settles O29: what enters FAULT raised one of the five faults, and fault entry is computed from the block before. -/
theorem faultEntryDiscardsTheOutput : Obligations.FaultEntryDiscardsTheOutput := by
  intro i s t h hs ht
  obtain ⟨f, hres, rfl⟩ := exec_enters_fault i s t h hs ht
  exact ⟨f, raised_codes hres, rfl⟩

/-! `done_o` and `fault_o` as functions of the phase. -/

theorem doneO_iff (b : Block) : b.doneO = true ↔ b.phase = .done := beq_iff_eq

theorem faultO_iff (b : Block) : b.faultO = true ↔ b.phase = .fault := beq_iff_eq

theorem doneO_eq_false_iff (b : Block) : b.doneO = false ↔ b.phase ≠ .done := beq_eq_false_iff_ne

theorem faultO_eq_false_iff (b : Block) : b.faultO = false ↔ b.phase ≠ .fault := beq_eq_false_iff_ne

theorem ErrorCode.code_ne_zero (f : ErrorCode) : f.code ≠ 0 := by cases f <;> decide

/-- A command answers `ok` = 1 only where it is performed. -/
theorem exec_answeredOk (i : Instr) (s t : State) (h : exec i s = .next t) (hok : t.answeredOk = true) :
    ∃ b d, resultOf s i = .performed b d ∧ t = { s with blk := b, resp := some (.yes d) } := by
  rcases exec_cases i s t h with ⟨rfl, _⟩ | ⟨_, f, _, rfl⟩ | ⟨_, hperformed⟩
  · cases hok
  · cases hok
  · exact hperformed

/-- A performed `END` enters DONE (41_packing.md R75). -/
theorem exec_end_performed (s t : State) (h : exec .endStream s = .next t) (hok : t.answeredOk = true) :
    t.blk.phase = .done := by
  obtain ⟨b, d, hres, rfl⟩ := exec_answeredOk _ s t h hok
  obtain ⟨b', _, rfl, _⟩ := closed_performed _ _ _ hres
  rfl

/-- Only a performed `END` enters DONE. -/
theorem exec_enters_done (i : Instr) (s t : State) (h : exec i s = .next t) (hs : s.blk.phase ≠ .done)
    (ht : t.blk.phase = .done) : t.answeredOk = true ∧ i = .endStream := by
  rcases exec_cases i s t h with ⟨rfl, _⟩ | ⟨_, f, _, rfl⟩ | ⟨_, b, d, hres, rfl⟩
  · exact absurd ht hs
  · cases ht
  · have hb : b.phase = .done := ht
    rcases resultOf_performed_phase i s b d hres with ⟨_, hp⟩ | ⟨_, hp⟩ | ⟨hi, _⟩ | hp
    · cases hb.symm.trans hp
    · cases hb.symm.trans hp
    · exact ⟨rfl, hi⟩
    · exact absurd (hp.symm.trans hb) hs

/-- A step into DONE is a performed `END`: `rst` gives LOAD, and a refusal keeps the phase. -/
theorem step_enters_done (s t : State) (h : step s = .next t) (hs : s.blk.phase ≠ .done) (ht : t.blk.phase = .done) :
    t.answeredOk = true ∧ ∃ rest, s.inputs = .command (encode .endStream) :: rest := by
  rcases step_cases s t h with ⟨rest, _, rfl⟩ | ⟨c, rest, _, rfl⟩ | ⟨i, rest, hin, hexec⟩
  · cases ht
  · exact absurd ht hs
  · obtain ⟨hok, rfl⟩ := exec_enters_done i _ t hexec hs ht
    exact ⟨hok, rest, hin⟩

/-- A step into FAULT is a fault entry: it answers (0, 0) and records a code. -/
theorem step_enters_fault (s t : State) (h : step s = .next t) (hs : s.blk.phase ≠ .fault)
    (ht : t.blk.phase = .fault) : t.resp = some .no ∧ t.blk.err ≠ 0 := by
  rcases step_cases s t h with ⟨rest, _, rfl⟩ | ⟨c, rest, _, rfl⟩ | ⟨i, rest, _, hexec⟩
  · cases ht
  · exact absurd ht hs
  · obtain ⟨f, _, rfl⟩ := exec_enters_fault i _ t hexec hs ht
    exact ⟨rfl, f.code_ne_zero⟩

/-- Settles O36: a rise is an entry into DONE or FAULT; a fall changes a block that only `CLR` and `rst` change. -/
theorem outputSignalsRiseAndFall : Obligations.OutputSignalsRiseAndFall := by
  refine ⟨reset_doneO, reset_faultO, fun s t h => ⟨doneO_iff _, faultO_iff _, ?_, ?_, ?_, ?_⟩⟩
  · rintro hok ⟨rest, hin⟩
    rw [step_defined s _ rest _ hin (decode_encode _)] at h
    exact (doneO_iff _).2 (exec_end_performed _ t h hok)
  · intro hs ht
    exact step_enters_done s t h ((doneO_eq_false_iff _).1 hs) ((doneO_iff _).1 ht)
  · intro hs ht
    exact step_enters_fault s t h ((faultO_eq_false_iff _).1 hs) ((faultO_iff _).1 ht)
  · rintro (⟨hs, ht⟩ | ⟨hs, ht⟩)
    · refine (step_closed s t (.inl ((doneO_iff _).1 hs)) h).resolve_left fun hsame => ?_
      rw [hsame, hs] at ht
      cases ht
    · refine (step_closed s t (.inr ((faultO_iff _).1 hs)) h).resolve_left fun hsame => ?_
      rw [hsame, hs] at ht
      cases ht

end Sys2Proof.Machine
end

section
/-! The invariants of 10_state.md R19: they hold after reset and every step keeps them. -/

namespace Sys2Proof.Machine

theorem reset_inv (depth : Nat) : Block.reset.Inv depth :=
  { accClear := lowClear_zero _
    fillLe := by decide
    countLe := Nat.zero_le _
    errFault := by decide
    closedEmpty := fun _ => ⟨rfl, rfl⟩
    countZero := fun _ => rfl
    width := .inr rfl
    entries := (ready_reset depth).entries
    errCode := by decide }

/-- Settles O37: the reset block meets the invariants at every depth. -/
theorem invariantHoldsAfterReset : Obligations.InvariantHoldsAfterReset := fun p h1 hmax =>
  ⟨⟨h1, hmax⟩, reset_inv p.outDepth⟩

theorem Block.Inv.ready {depth : Nat} {b : Block} (h : b.Inv depth) : Ready depth b := ⟨h.open, h.entries⟩

/-- The codes of the five faults the block raises are in R91's list. -/
theorem raised_code_mem {i : Instr} {s : State} {f : ErrorCode} (h : resultOf s i = .raised f) :
    f.code ∈ raisedCodes := by
  rcases raised_codes h with rfl | rfl | rfl | rfl | rfl <;> decide

/-- Fault entry keeps the invariants: it empties what a stream had written, and records its code. -/
theorem Block.Inv.raise {depth : Nat} {b : Block} {f : ErrorCode} (h : b.Inv depth) (hcode : f.code ∈ raisedCodes) :
    (b.raise f).Inv depth :=
  { accClear := lowClear_zero _
    fillLe := by simp
    countLe := Nat.zero_le _
    errFault := iff_of_true f.code_ne_zero rfl
    closedEmpty := fun _ => ⟨rfl, rfl⟩
    countZero := fun _ => rfl
    width := h.width
    entries := h.entries
    errCode := hcode }

/-- What packing leaves with an open word, entered into PACK from a phase other than FAULT, meets the invariants. -/
theorem Block.Inv.packed {depth : Nat} {b b' : Block} (h : b.Inv depth) (hphase : b.phase ≠ .fault)
    (hopen : Open depth b') (hkept : Kept b b') : ({ b' with phase := .pack } : Block).Inv depth :=
  have herr : b'.err = 0 := hkept.err.trans (Decidable.not_not.1 (mt h.errFault.1 hphase))
  { accClear := hopen.accClear
    fillLe := hopen.fillLe
    countLe := hopen.countLe
    errFault := iff_of_false (not_not_intro herr) nofun
    closedEmpty := fun hne => absurd rfl hne
    countZero := nofun
    width := hkept.w ▸ h.width
    entries := hkept.cb ▸ h.entries
    errCode := hkept.err ▸ h.errCode }

/-- What the flush of `END` leaves, entered into DONE from a phase other than FAULT, meets the invariants. -/
theorem Block.Inv.closed {depth : Nat} {b b' : Block} (h : b.Inv depth) (hphase : b.phase ≠ .fault)
    (hflush : Flushed depth b b') : ({ b' with phase := .done } : Block).Inv depth :=
  have hpacked := h.packed hphase hflush.still hflush.kept
  { hpacked with
    errFault := iff_of_false (fun hne => nomatch hpacked.errFault.1 hne) nofun
    closedEmpty := fun _ => hflush.closed
    countZero := nofun }

/-- The phases in which a stream may be written. -/
theorem mem_load_pack {p : Phase} : p ∈ [Phase.load, .pack] ↔ p = .load ∨ p = .pack := by simp

theorem legalPhases_pack {i : Instr} (hi : isPack i = true) : legalPhases i = [.load, .pack] := by
  cases i with
  | putu a => rfl
  | putb a => rfl
  | _ => cases hi

theorem ne_fault_of_load_pack {p : Phase} (h : p ∈ [Phase.load, .pack]) : p ≠ .fault := by
  rintro rfl
  simp at h

/-- A performed command keeps the invariants. -/
theorem performed_keeps_inv {i : Instr} {s : State} {b : Block} {d : Data} (h : s.Inv)
    (hlegal : s.blk.phase ∈ legalPhases i) (hres : resultOf s i = .performed b d) :
    b.Inv s.params.outDepth := by
  have hblk := h.block
  rcases resultOf_performed i s b d hres with
    ⟨_, rfl⟩ | ⟨a, _, ha, rfl⟩ | ⟨_, _, _, _, _, _, _, rfl⟩ | ⟨a, l, c, _, h1, h64, _, rfl⟩ | ⟨hpack, b', hunits, rfl⟩ |
      ⟨rfl, b', hflush, rfl⟩ | ⟨_, rfl⟩
  · exact reset_inv _
  · have hwidth : widthOperand a = 4 ∨ widthOperand a = 8 := by rcases ha with rfl | rfl <;> decide
    exact { hblk with width := hwidth }
  · exact { hblk with }
  · exact { hblk with entries := entries_store _ a _ (entryOperand_wf l c h1 h64) hblk.entries }
  · obtain ⟨_, happ⟩ := packUnits_ok _ _ _ _ hblk.open hblk.entries hunits
    exact hblk.packed (ne_fault_of_load_pack (legalPhases_pack hpack ▸ hlegal)) happ.still happ.kept
  · exact hblk.closed (ne_fault_of_load_pack hlegal) (flush_ok _ _ _ hblk.open hblk.open.acc_eq_zero hflush)
  · exact hblk

/-- Every command keeps the invariants, whether it is refused, faults or is performed. -/
theorem exec_keeps_inv (i : Instr) (s t : State) (h : s.Inv) (hexec : exec i s = .next t) : t.Inv := by
  rcases exec_cases i s t hexec with ⟨rfl, _⟩ | ⟨_, f, hres, rfl⟩ | ⟨hlegal, b, d, hres, rfl⟩
  · exact ⟨h.params, h.block⟩
  · exact ⟨h.params, h.block.raise (raised_code_mem hres)⟩
  · have hb := performed_keeps_inv h hlegal hres
    exact ⟨h.params, hb⟩

/-- Settles O38: `rst` gives the reset block, an undefined encoding changes no element, and every command keeps the
invariants. -/
theorem everyStepKeepsTheInvariant : Obligations.EveryStepKeepsTheInvariant := by
  intro s t h hstep
  rcases step_cases s t hstep with ⟨rest, _, rfl⟩ | ⟨c, rest, _, rfl⟩ | ⟨i, rest, _, hexec⟩
  · exact ⟨h.params, reset_inv _⟩
  · exact ⟨h.params, h.block⟩
  · exact exec_keeps_inv i { s with inputs := rest } t ⟨h.params, h.block⟩ hexec

end Sys2Proof.Machine
end

section
/-! Operands as bits of the command, and worked encodings (30_encoding.md R50, R52, section 7). -/

namespace Sys2Proof

/-! A field of a command as a number. -/

theorem aField_toNat (c : Cmd) : (aField c).toNat = c.toNat / 2 ^ 72 % 2 ^ 8 := by
  rw [aField, BitVec.extractLsb'_toNat, Nat.shiftRight_eq_div_pow]

theorem lField_toNat (c : Cmd) : (lField c).toNat = c.toNat / 2 ^ 64 % 2 ^ 8 := by
  rw [lField, BitVec.extractLsb'_toNat, Nat.shiftRight_eq_div_pow]

theorem dField_toNat (c : Cmd) : (dField c).toNat = c.toNat % 2 ^ 64 := by
  rw [dField, BitVec.extractLsb'_toNat, Nat.shiftRight_zero]

theorem idxField_toNat (c : Cmd) : (idxField c).toNat = c.toNat % 2 ^ 32 := by
  rw [idxField, BitVec.extractLsb'_toNat, Nat.shiftRight_zero]

/-- Settles O3: a command that decodes is an encoding, whose fields are the operands packed into it. -/
theorem operandsAreTheirFields : Obligations.OperandsAreTheirFields := by
  intro c
  simp only [decode_eq_ok_iff]
  refine ⟨?_, ?_, ?_, ?_, ?_⟩
  · rintro a rfl
    rw [← aField_toNat, encode, aField_packFields]
  · rintro a l d rfl
    rw [← aField_toNat, ← lField_toNat, ← dField_toNat, encode, aField_packFields, lField_packFields, dField_packFields]
    exact ⟨rfl, rfl, rfl⟩
  · rintro a rfl
    rw [← aField_toNat, encode, aField_packFields]
  · rintro a rfl
    rw [← aField_toNat, encode, aField_packFields]
  · rintro i rfl
    rw [← idxField_toNat, encode, idxField_packFields]

/-- Settles O4: four of the words are encodings, which decode back; the decoder refuses the other two by a field that
is not zero. -/
theorem workedEncodingsDecode : Obligations.WorkedEncodingsDecode :=
  ⟨decode_encode (.cfg 4), decode_encode (.ldcode 0xFF 64 0x8000000000000001), decode_encode (.putb 0x2B),
    decode_encode (.rdw 1), rfl, rfl⟩

end Sys2Proof
end

section
/-! What a step and a command read, and how they end (60_exceptions.md R90, 41_packing.md R78). -/

namespace Sys2Proof.Machine

/-- `rst` gives the reset block and no response (70_reset_and_hazards.md R100). -/
theorem step_rst (s : State) (rest : List Input) (hin : s.inputs = .rst :: rest) :
    step s = .next { blk := Block.reset, params := s.params, inputs := rest, resp := none } := by
  simp only [step, hin]
  rfl

/-- With nothing presented there is no step (93_implementation_defined.md U16). -/
theorem step_nothing (s : State) (hin : s.inputs = []) : step s = .refused .noCommand := by
  simp only [step, hin]

/-- Settles O6, from the two equations of the step. -/
theorem rstTakesEveryStateToReset : Obligations.RstTakesEveryStateToReset := fun s =>
  ⟨step_rst s, step_nothing s⟩

/-- A command's result reads the block and `OUT_DEPTH` alone. -/
theorem resultOf_congr {s s' : State} (i : Instr) (hblk : s.blk = s'.blk)
    (hdepth : s.params.outDepth = s'.params.outDepth) : resultOf s i = resultOf s' i := by
  cases i <;> simp only [resultOf, hblk, hdepth]

/-- However a command ends, the frame leaves the block and the response to the block before and the result. -/
theorem underFrame_answers (b : Block) (legal : List Phase) (x : Result) :
    ∃ b' r, ∀ s : State, s.blk = b → s.underFrame legal x = .next { s with blk := b', resp := some r } := by
  by_cases hlegal : b.phase ∈ legal
  · cases x with
    | performed b' d =>
      exact ⟨b', .yes d, fun s hs => by subst hs; rw [underFrame_legal _ _ _ hlegal, finish_performed]⟩
    | refused => exact ⟨b, .no, fun s hs => by subst hs; rw [underFrame_legal _ _ _ hlegal, finish_refused]⟩
    | raised f => exact ⟨b.raise f, .no, fun s hs => by subst hs; rw [underFrame_legal _ _ _ hlegal, finish_raised]⟩
  · exact ⟨b, .no, fun s hs => by subst hs; rw [underFrame_illegal _ _ _ hlegal]⟩

/-- A command answers a next state whose block and response are determined by the block before it and `OUT_DEPTH`. -/
theorem exec_answers (i : Instr) (s : State) :
    ∃ b r, ∀ s' : State, s'.blk = s.blk → s'.params.outDepth = s.params.outDepth →
      exec i s' = .next { s' with blk := b, resp := some r } := by
  obtain ⟨b, r, hall⟩ := underFrame_answers s.blk (legalPhases i) (resultOf s i)
  refine ⟨b, r, fun s' hblk hdepth => ?_⟩
  rw [exec_eq, resultOf_congr i hblk hdepth, hall s' hblk]

/-- Settles O7: `rst` reads nothing, an undefined encoding keeps the block, and a command reads the block and
`OUT_DEPTH`. -/
theorem stepDependsOnBlockCommandAndDepth : Obligations.StepDependsOnBlockCommandAndDepth := by
  intro s s' x rest rest' hblk hdepth hin hin'
  cases x with
  | rst => exact ⟨_, _, step_rst s rest hin, step_rst s' rest' hin', rfl, rfl, rfl, rfl, rfl, rfl⟩
  | command c =>
    cases hdec : decode c with
    | error r =>
      exact ⟨_, _, step_undefined s c rest r hin hdec, step_undefined s' c rest' r hin' hdec, hblk, rfl, rfl, rfl,
        rfl, rfl⟩
    | ok i =>
      obtain ⟨b, r, hall⟩ := exec_answers i s
      exact ⟨_, _, (step_defined s c rest i hin hdec).trans (hall _ rfl rfl),
        (step_defined s' c rest' i hin' hdec).trans (hall _ hblk.symm hdepth.symm), rfl, rfl, rfl, rfl, rfl, rfl⟩

/-- No performed command enters FAULT. -/
theorem performed_phase_ne_fault {i : Instr} {s : State} {b : Block} {d : Data}
    (hres : resultOf s i = .performed b d) (hb : b.phase = .fault) : s.blk.phase = .fault := by
  rcases resultOf_performed_phase i s b d hres with ⟨_, hp⟩ | ⟨_, hp⟩ | ⟨_, hp⟩ | hp
  · cases hp.symm.trans hb
  · cases hp.symm.trans hb
  · cases hp.symm.trans hb
  · exact hp.symm.trans hb

/-- Settles O8: every command answers, and its three ways to end are the three outcomes. -/
theorem everyCommandEndsInOneOfThreeOutcomes : Obligations.EveryCommandEndsInOneOfThreeOutcomes := by
  intro i s
  obtain ⟨b, r, hall⟩ := exec_answers i s
  refine ⟨_, r, hall s rfl rfl, rfl, rfl, rfl, ?_⟩
  rcases exec_cases i s _ (hall s rfl rfl) with ⟨heq, _⟩ | ⟨hlegal, f, hres, heq⟩ | ⟨_, b', d, hres, heq⟩ <;> cases heq
  · exact .inr (.inl ⟨rfl, rfl⟩)
  · exact .inr (.inr ⟨rfl, phase_ne_fault_of_raised hlegal hres, rfl, f.code_ne_zero⟩)
  · exact .inl ⟨rfl, performed_phase_ne_fault hres⟩

/-- Settles O32: DONE is a closed phase. -/
theorem finishedOutputIsFixed : Obligations.FinishedOutputIsFixed := fun s t hdone h => step_closed s t (.inl hdone) h

end Sys2Proof.Machine
end

section
/-! The writers of `W`, `ERR`, `DUP` and `OUT` (10_state.md R12, R15, R17, R18). -/

namespace Sys2Proof.Machine

/-- What a performed command other than `CLR` may write beside the codebase, the open word and the phase: `CFG` the
width, a second load `DUP`, the packing commands and `END` new words of `OUT`; `ERR` never. -/
theorem resultOf_performed_writes {i : Instr} {s : State} {b : Block} {d : Data}
    (hres : resultOf s i = .performed b d) :
    (i = .clr ∧ b = Block.reset) ∨
    (b.err = s.blk.err ∧
      (b.w = s.blk.w ∨ ∃ a, i = .cfg a ∧ (a = 4 ∨ a = 8)) ∧
      (b.dup = s.blk.dup ∨ b.dup = true ∧ ∃ a l d, i = .ldcode a l d ∧ Codebase.lookup s.blk.cb a ≠ none) ∧
      ∃ ws, b.out = s.blk.out ++ ws ∧ (ws ≠ [] → i = .endStream ∨ isPack i = true)) := by
  have hsame : ∃ ws, s.blk.out = s.blk.out ++ ws ∧ (ws ≠ [] → i = .endStream ∨ isPack i = true) :=
    ⟨[], (List.append_nil _).symm, fun h => absurd rfl h⟩
  rcases resultOf_performed i s b d hres with
    hclr | ⟨a, hi, ha, rfl⟩ | ⟨a, l, c, hi, _, _, ⟨e, he⟩, rfl⟩ | ⟨_, _, _, _, _, _, _, rfl⟩ |
      ⟨hpack, b', hunits, rfl⟩ | ⟨hend, b', hflush, rfl⟩ | ⟨_, rfl⟩
  · exact .inl hclr
  · exact .inr ⟨rfl, .inr ⟨a, hi, ha⟩, .inl rfl, hsame⟩
  · exact .inr ⟨rfl, .inl rfl, .inr ⟨rfl, a, l, c, hi, by simp [he]⟩, hsame⟩
  · exact .inr ⟨rfl, .inl rfl, .inl rfl, hsame⟩
  · have hkept := packUnits_kept _ _ _ _ hunits
    obtain ⟨ws, hout⟩ := hkept.out
    exact .inr ⟨hkept.err, .inl hkept.w, .inl hkept.dup, ws, hout, fun _ => .inr hpack⟩
  · have hkept := flush_kept _ _ _ hflush
    obtain ⟨ws, hout⟩ := hkept.out
    exact .inr ⟨hkept.err, .inl hkept.w, .inl hkept.dup, ws, hout, fun _ => .inl hend⟩
  · exact .inr ⟨rfl, .inl rfl, .inl rfl, hsame⟩

/-- Settles O34: a refusal writes nothing, fault entry `ERR` alone, and the performed writers are `CLR`, `CFG` and a
second load, the last two legal only in LOAD. -/
theorem widthErrorAndDupHaveTheirWriters : Obligations.WidthErrorAndDupHaveTheirWriters := by
  intro i s t hexec
  rcases exec_cases i s t hexec with ⟨rfl, _⟩ | ⟨hlegal, f, hres, rfl⟩ | ⟨hlegal, b, d, hres, rfl⟩
  · exact ⟨fun h => absurd rfl h, fun h => absurd rfl h, fun h h' => absurd (h.symm.trans h') nofun,
      fun h h' => absurd (h.symm.trans h') nofun⟩
  · exact ⟨fun h => absurd rfl h, fun _ => .inr ⟨phase_ne_fault_of_raised hlegal hres, rfl⟩,
      fun h h' => absurd (h.symm.trans h') nofun, fun h h' => absurd (h.symm.trans h') nofun⟩
  rcases resultOf_performed_writes hres with ⟨hclr, rfl⟩ | ⟨herr, hw, hdup, _⟩
  · exact ⟨fun _ => .inl hclr, fun _ => .inl hclr, nofun, fun _ _ => hclr⟩
  · refine ⟨fun h => ?_, fun h => absurd herr h, fun h h' => ?_, fun h h' => ?_⟩
    · obtain ⟨a, rfl, ha⟩ := hw.resolve_left h
      exact .inr ⟨List.mem_singleton.1 hlegal, a, rfl, ha⟩
    · obtain ⟨_, a, l, c, rfl, he⟩ := hdup.resolve_left fun hsame => nomatch h.symm.trans (hsame.trans h')
      exact ⟨List.mem_singleton.1 hlegal, a, l, c, rfl, he⟩
    · rcases hdup with hsame | ⟨hset, _⟩
      · exact nomatch h.symm.trans (hsame.trans h')
      · exact nomatch h.symm.trans hset

/-- Settles O35: a refusal writes nothing, fault entry and `CLR` empty `OUT`, and the others write new words at its
end. -/
theorem outOnlyGrowsAtItsEnd : Obligations.OutOnlyGrowsAtItsEnd := by
  intro i s t _ hexec
  rcases exec_cases i s t hexec with ⟨rfl, _⟩ | ⟨hlegal, f, hres, rfl⟩ | ⟨_, b, d, hres, rfl⟩
  · exact .inl ⟨[], (List.append_nil _).symm, fun h => absurd rfl h⟩
  · exact .inr ⟨rfl, .inr ⟨phase_ne_fault_of_raised hlegal hres, rfl⟩⟩
  · rcases resultOf_performed_writes hres with ⟨hclr, rfl⟩ | ⟨_, _, _, hout⟩
    · exact .inr ⟨rfl, .inl hclr⟩
    · exact .inl hout

end Sys2Proof.Machine
end

section
/-! A bit-string literal and the entry it loads (30_encoding.md R57, 41_packing.md R81). -/

namespace Sys2Proof.Machine

theorem bitsToNat_append_bit (bits : List Bool) (b : Bool) :
    bitsToNat (bits ++ [b]) = 2 * bitsToNat bits + b.toNat := by simp [bitsToNat]

theorem bitsToNat_lt (bits : List Bool) : bitsToNat bits < 2 ^ bits.length := by
  obtain ⟨lastFirst, rfl⟩ : ∃ bs : List Bool, bits = bs.reverse := ⟨bits.reverse, bits.reverse_reverse.symm⟩
  induction lastFirst with
  | nil => decide
  | cons b bs ih =>
    have hb := b.toNat_lt
    rw [List.reverse_cons, bitsToNat_append_bit, List.length_append, List.length_singleton, Nat.pow_succ]
    omega

/-- A literal of at most 64 bits, as a number in a code's low bits, spells itself root bit first. -/
theorem codeString_bitsToNat (bits : List Bool) (h : bits.length ≤ 64) :
    codeString (BitVec.ofNat 64 (bitsToNat bits)) bits.length = bits := by
  obtain ⟨lastFirst, rfl⟩ : ∃ bs : List Bool, bits = bs.reverse := ⟨bits.reverse, bits.reverse_reverse.symm⟩
  induction lastFirst with
  | nil => rfl
  | cons b bs ih =>
    rw [List.reverse_cons] at h ⊢
    generalize bs.reverse = bits at h ih ⊢
    rw [List.length_append, List.length_singleton] at h ⊢
    have hsmall : bitsToNat bits < 2 ^ 63 :=
      Nat.lt_of_lt_of_le (bitsToNat_lt bits) (Nat.pow_le_pow_right (by decide) (by omega))
    have hb := b.toNat_lt
    have hhigh : BitVec.ofNat 64 (bitsToNat (bits ++ [b])) >>> 1 = BitVec.ofNat 64 (bitsToNat bits) := by
      apply BitVec.eq_of_toNat_eq
      rw [BitVec.toNat_ushiftRight, BitVec.toNat_ofNat, BitVec.toNat_ofNat, bitsToNat_append_bit,
        Nat.shiftRight_eq_div_pow]
      omega
    have hlow : codeString (BitVec.ofNat 64 (bitsToNat (bits ++ [b]))) 1 = [b] := by
      have hbit : (BitVec.ofNat 64 (bitsToNat (bits ++ [b]))).getLsbD 0 = b := by
        rw [BitVec.getLsbD_ofNat, bitsToNat_append_bit, Nat.testBit_zero]
        cases b <;> simp
      exact congrArg (fun x => [x]) hbit
    rw [codeString_split _ (bits.length + 1) bits.length (Nat.le_succ _), Nat.add_sub_cancel_left, hhigh, hlow,
      ih (by omega)]

/-- The bit string of a stored entry is that of the operands. -/
theorem entryOperand_string (l : Byte) (d : Code) (h64 : l.toNat ≤ 64) :
    (entryOperand l d).string = codeString d l.toNat := by
  rw [CodeEntry.string, entryOperand_len l d h64]
  exact codeString_mask d l.toNat h64

/-- A literal of 1 to 64 bits assembles to one command, its length and its number the operands. -/
theorem assemble_ldcodeBits (sym : Nat) (bits : List Bool) (hsym : sym < 256) (h64 : bits.length ≤ 64) :
    AsmLine.assemble (.ldcodeBits sym bits) =
      some [.ldcode (BitVec.ofNat 8 sym) (BitVec.ofNat 8 bits.length) (BitVec.ofNat 64 (bitsToNat bits))] := by
  have hlen : bits.length < 2 ^ 8 := by omega
  have hcode : bitsToNat bits < 2 ^ 64 :=
    Nat.lt_of_lt_of_le (bitsToNat_lt bits) (Nat.pow_le_pow_right (by decide) h64)
  simp only [AsmLine.assemble, ldcodeOperands, byteOperand, Config.symBits, Config.codeBits, if_pos hlen, if_pos hcode,
    if_pos (show sym < 2 ^ 8 from hsym)]

/-- Settles O12: the literal's command is a first load, and the entry it stores spells the literal. -/
theorem bitLiteralLoadsItsOwnBits : Obligations.BitLiteralLoadsItsOwnBits := by
  intro sym bits s hsym h1 h64 hload hnone
  have hlen : (BitVec.ofNat 8 bits.length).toNat = bits.length := by
    rw [BitVec.toNat_ofNat]
    omega
  refine ⟨_, _, _, assemble_ldcodeBits sym bits hsym h64,
    exec_performed ((mem_legalPhases_ldcode _ _ _ _).2 hload)
      (resultOf_ldcode_first _ _ _ s (hlen.symm ▸ h1) (hlen.symm ▸ h64) hnone),
    lookup_store_same _ _ _, ?_⟩
  rw [entryOperand_string _ _ (hlen.symm ▸ h64), hlen, codeString_bitsToNat bits h64]

end Sys2Proof.Machine
end

section
/-! `APPEND` by the space left in the word (41_packing.md R72). -/

namespace Sys2Proof.Machine

/-- A code with no bit at or above `n` is its low `n` bits. -/
theorem and_ones_eq_self (c : Code) (n : Nat) (hn : n ≤ 64) (hclear : ∀ k, n ≤ k → c.getLsbD k = false) :
    c &&& ones n = c := by
  apply BitVec.eq_of_getLsbD_eq
  intro k _
  rw [BitVec.getLsbD_and, ones_getLsbD n k hn]
  by_cases hk : k < n
  · simp [hk]
  · simp [hclear k (by omega)]

/-- Masks of codes that agree below the mask's length are equal. -/
theorem and_ones_congr {c c' : Code} {n : Nat} (hn : n ≤ 64) (h : ∀ k, k < n → c.getLsbD k = c'.getLsbD k) :
    c &&& ones n = c' &&& ones n := by
  apply BitVec.eq_of_getLsbD_eq
  intro k _
  rw [BitVec.getLsbD_and, BitVec.getLsbD_and, ones_getLsbD n k hn]
  by_cases hk : k < n
  · rw [h k hk]
  · simp [hk]

/-- The loop reads the low `rem` bits of the code, and any fuel of at least `rem` gives the same: a pass into an open
word leaves fewer bits to go. -/
theorem appendLoop_congr (depth : Nat) (c c' : Code) (fuel fuel' rem : Nat) (b : Block) (hfill : b.fill.toNat ≤ 31)
    (hfuel : rem ≤ fuel) (hfuel' : rem ≤ fuel') (hrem : rem ≤ 64)
    (h : ∀ k, k < rem → c.getLsbD k = c'.getLsbD k) :
    appendLoop depth c fuel rem b = appendLoop depth c' fuel' rem b := by
  induction fuel generalizing fuel' rem b with
  | zero =>
    have h0 : rem = 0 := by omega
    rw [h0, appendLoop_done, appendLoop_done]
  | succ fuel ih =>
    by_cases h0 : rem = 0
    · rw [h0, appendLoop_done, appendLoop_done]
    obtain ⟨fuel', rfl⟩ : ∃ n, fuel' = n + 1 := ⟨fuel' - 1, by omega⟩
    by_cases hs : 32 - b.fill.toNat < rem
    · have hchunk : (c >>> (rem - (32 - b.fill.toNat))) &&& ones (32 - b.fill.toNat) =
          (c' >>> (rem - (32 - b.fill.toNat))) &&& ones (32 - b.fill.toNat) := by
        refine and_ones_congr (by omega) fun k hk => ?_
        rw [BitVec.getLsbD_ushiftRight, BitVec.getLsbD_ushiftRight]
        exact h _ (by omega)
      rw [appendLoop_split _ _ _ _ _ hs, appendLoop_split _ _ _ _ _ hs, hchunk]
      by_cases hfull : b.wcount = depth
      · rw [pushAndClear_full _ _ _ hfull]
      · rw [pushAndClear_room _ _ _ hfull]
        exact ih _ _ _ (Nat.zero_le _) (by omega) (by omega) (by omega) fun k hk => h k (by omega)
    · rw [appendLoop_fits _ _ _ _ _ h0 hs, appendLoop_fits _ _ _ _ _ h0 hs, and_ones_congr hrem h]

section
variable {depth : Nat} {e : CodeEntry} {b : Block}

/-- How many bits are open after a code that fits. -/
theorem fill_add_toNat (hfits : e.len.toNat ≤ 32 - b.fill.toNat) (hfill : b.fill.toNat ≤ 31) :
    (b.fill + BitVec.ofNat 6 e.len.toNat).toNat = b.fill.toNat + e.len.toNat := by
  rw [BitVec.toNat_add, BitVec.toNat_ofNat]
  omega

/-- A code that fits takes one pass, which does not split it. -/
theorem append_fits (he : e.wf) (hfill : b.fill.toNat ≤ 31) (hfits : e.len.toNat ≤ 32 - b.fill.toNat) :
    append depth e b =
      if b.fill.toNat + e.len.toNat = 32 then
        pushAndClear depth (b.acc ||| (e.code.setWidth 32 <<< (32 - b.fill.toNat - e.len.toNat))) b
      else .ok { b with
        acc := b.acc ||| (e.code.setWidth 32 <<< (32 - b.fill.toNat - e.len.toNat)),
        fill := b.fill + BitVec.ofNat 6 e.len.toNat } := by
  rw [append, appendLoop_fits _ _ _ _ _ (Nat.ne_of_gt he.lenPos) (by omega), fill_add_toNat hfits hfill,
    and_ones_eq_self _ _ he.len_le he.codeClear]

/-- The high-order part of a longer code is no wider than the space it completes. -/
theorem high_part_mask (he : e.wf) :
    (e.code >>> (e.len.toNat - (32 - b.fill.toNat))) &&& ones (32 - b.fill.toNat) =
      e.code >>> (e.len.toNat - (32 - b.fill.toNat)) := by
  refine and_ones_eq_self _ _ (by omega) fun k hk => ?_
  rw [BitVec.getLsbD_ushiftRight]
  exact he.codeClear _ (by omega)

/-- A longer code completes the word with its high-order part, and the rest is appended after the push. -/
theorem append_splits (he : e.wf) (hlong : 32 - b.fill.toNat < e.len.toNat) (hroom : b.wcount ≠ depth) :
    append depth e b = appendLoop depth e.code e.len.toNat (e.len.toNat - (32 - b.fill.toNat))
      { b with acc := 0, fill := 0,
               out := b.out ++ [b.acc ||| (e.code >>> (e.len.toNat - (32 - b.fill.toNat))).setWidth 32] } := by
  simp only [append, appendLoop_split _ _ _ _ _ hlong, high_part_mask he, pushAndClear_room _ _ _ hroom]

/-- The rest of a split code, appended as an entry of its own. -/
theorem append_low_part (he : e.wf) {n : Nat} (hn : n ≤ e.len.toNat) (hfill : b.fill.toNat ≤ 31) :
    append depth { len := BitVec.ofNat 7 n, code := e.code &&& ones n } b =
      appendLoop depth e.code e.len.toNat n b := by
  have h64 := he.len_le
  have hlen : (BitVec.ofNat 7 n).toNat = n := by
    rw [BitVec.toNat_ofNat]
    omega
  simp only [append, hlen]
  refine appendLoop_congr depth _ _ _ _ n b hfill (Nat.le_succ n) hn (by omega) fun k hk => ?_
  rw [BitVec.getLsbD_and, ones_getLsbD n k (by omega)]
  simp [hk]

end

/-- Settles O13: a code that fits takes one pass, which completes the word exactly where it fills the space; a longer
one pushes first. -/
theorem appendFitsFillsOrSplits : Obligations.AppendFitsFillsOrSplits := by
  intro depth e b h1 h64 hclear hfill
  have he : e.wf := ⟨h1, h64, hclear⟩
  refine ⟨fun hlt => ?_, fun heq hroom => ?_, fun hlong hroom => ?_, fun hle hfull => ?_⟩
  · have hne : b.fill.toNat + e.len.toNat ≠ 32 := by omega
    rw [append_fits he hfill (Nat.le_of_lt hlt), if_neg hne, BitVec.ofNat_add, BitVec.ofNat_toNat 6 b.fill,
      BitVec.setWidth_eq]
  · have h32 : b.fill.toNat + e.len.toNat = 32 := by omega
    have hshift : 32 - b.fill.toNat - e.len.toNat = 0 := by omega
    rw [append_fits he hfill (Nat.le_of_eq heq), if_pos h32, hshift, BitVec.shiftLeft_zero, pushAndClear_room _ _ _ hroom]
  · rw [append_splits he hlong hroom]
    exact (append_low_part he (Nat.sub_le _ _) (Nat.zero_le _)).symm
  · by_cases hlong : 32 - b.fill.toNat < e.len.toNat
    · simp only [append, appendLoop_split _ _ _ _ _ hlong, pushAndClear_full _ _ _ hfull]
    · have h32 : b.fill.toNat + e.len.toNat = 32 := by omega
      rw [append_fits he hfill (Nat.not_lt.1 hlong), if_pos h32, pushAndClear_full _ _ _ hfull]

end Sys2Proof.Machine
end

section
/-! When `PACKUNIT` completes and when it raises, for one unit and for several (41_packing.md R70, R71, R76). -/

namespace Sys2Proof.Machine

theorem packUnits_cons_ok {depth : Nat} {u : Byte} {b b' : Block} (us : List Byte) (h : packUnit depth u b = .ok b') :
    packUnits depth (u :: us) b = packUnits depth us b' := by simp only [packUnits, h]

theorem packUnits_cons_error {depth : Nat} {u : Byte} {b : Block} {f : ErrorCode} (us : List Byte)
    (h : packUnit depth u b = .error f) : packUnits depth (u :: us) b = .error f := by simp only [packUnits, h]

theorem CodeEntry.string_length (e : CodeEntry) : e.string.length = e.len.toNat := codeString_length _ _

theorem unitsString_cons (cb : Codebase) (u : Byte) (us : List Byte) :
    unitsString cb (u :: us) = unitString cb u ++ unitsString cb us := List.flatMap_cons

theorem unitsString_singleton (cb : Codebase) (u : Byte) : unitsString cb [u] = unitString cb u := by
  simp [unitsString]

/-- An append keeps a block ready for the next unit. -/
theorem Appended.ready {depth : Nat} {bits : List Bool} {b b' : Block} (h : Appended depth bits b b')
    (hready : Ready depth b) : Ready depth b' :=
  ⟨h.still, h.kept.cb ▸ hready.entries⟩

section
variable {depth : Nat} {b : Block} (hready : Ready depth b)
include hready

/-- A unit whose code's words fit is packed. -/
theorem packUnit_room {u : Byte} {e : CodeEntry} (hl : Codebase.lookup b.cb u = some e)
    (hroom : (b.pos + e.len.toNat) / 32 ≤ depth) :
    ∃ b', packUnit depth u b = .ok b' ∧ Appended depth (unitString b.cb u) b b' := by
  rw [packUnit_found _ _ _ _ hl, unitString_found _ _ _ hl]
  exact append_ok depth e b hready.still (hready.entries u e hl).len_le hroom

/-- A unit whose code's words do not fit raises `OutputOverflow`. -/
theorem packUnit_overflow {u : Byte} {e : CodeEntry} (hl : Codebase.lookup b.cb u = some e)
    (hfull : depth < (b.pos + e.len.toNat) / 32) : packUnit depth u b = .error .outputOverflow := by
  rw [packUnit_found _ _ _ _ hl]
  exact append_overflow depth e b hready.still (hready.entries u e hl).len_le hfull

/-- Where the first unit's words fit, the others are packed from the position after its code. -/
theorem packUnits_cons_room {u : Byte} {e : CodeEntry} (us : List Byte) (hl : Codebase.lookup b.cb u = some e)
    (hroom : (b.pos + e.len.toNat) / 32 ≤ depth) :
    ∃ b', Ready depth b' ∧ b'.cb = b.cb ∧ b'.pos = b.pos + e.len.toNat ∧
      packUnits depth (u :: us) b = packUnits depth us b' := by
  obtain ⟨b', hok, happ⟩ := packUnit_room hready hl hroom
  refine ⟨b', happ.ready hready, happ.kept.cb, ?_, packUnits_cons_ok us hok⟩
  rw [happ.pos, unitString_found _ _ _ hl, e.string_length]

/-- What makes `PACKUNIT` raise: no entry, or a code that finishes more words than the buffer holds. -/
theorem packUnit_error_cause {u : Byte} {f : ErrorCode} (h : packUnit depth u b = .error f) :
    (f = .codebaseMissingEntry ∧ Codebase.lookup b.cb u = none) ∨
    (f = .outputOverflow ∧ 32 * (depth + 1) ≤ b.pos + (unitString b.cb u).length) := by
  cases hl : Codebase.lookup b.cb u with
  | none =>
    rw [packUnit_missing _ _ _ hl] at h
    exact .inl ⟨(Except.error.inj h).symm, rfl⟩
  | some e =>
    rw [unitString_found _ _ _ hl, e.string_length]
    by_cases hroom : (b.pos + e.len.toNat) / 32 ≤ depth
    · obtain ⟨b', hok, _⟩ := packUnit_room hready hl hroom
      exact nomatch hok.symm.trans h
    · rw [packUnit_overflow hready hl (Nat.not_le.1 hroom)] at h
      exact .inr ⟨(Except.error.inj h).symm, by omega⟩

/-- Units that all have entries and whose words fit together are packed, in order. -/
theorem packUnits_room (us : List Byte) (hfound : ∀ u ∈ us, Codebase.lookup b.cb u ≠ none)
    (hroom : (b.pos + (unitsString b.cb us).length) / 32 ≤ depth) :
    ∃ b', packUnits depth us b = .ok b' ∧ Appended depth (unitsString b.cb us) b b' := by
  induction us generalizing b with
  | nil => exact ⟨b, rfl, Appended.refl hready.still⟩
  | cons u us ih =>
    obtain ⟨hu, hus⟩ := List.forall_mem_cons.1 hfound
    obtain ⟨e, hl⟩ := Option.ne_none_iff_exists'.1 hu
    rw [unitsString_cons, List.length_append] at hroom
    have hlen : (unitString b.cb u).length = e.len.toNat := by rw [unitString_found _ _ _ hl, e.string_length]
    obtain ⟨b1, h1, ha1⟩ := packUnit_room hready hl (by omega)
    obtain ⟨b2, h2, ha2⟩ := ih (ha1.ready hready) (ha1.kept.cb ▸ hus)
      (by rw [ha1.pos, ha1.kept.cb, Nat.add_assoc]; exact hroom)
    rw [ha1.kept.cb] at ha2
    rw [unitsString_cons]
    exact ⟨b2, (packUnits_cons_ok us h1).trans h2, ha1.trans ha2⟩

/-- What makes packing several units raise: one of them has no entry, or together they finish more words than the
buffer holds. -/
theorem packUnits_error_cause (us : List Byte) {f : ErrorCode} (h : packUnits depth us b = .error f) :
    (f = .codebaseMissingEntry ∧ ∃ u ∈ us, Codebase.lookup b.cb u = none) ∨
    (f = .outputOverflow ∧ 32 * (depth + 1) ≤ b.pos + (unitsString b.cb us).length) := by
  induction us generalizing b with
  | nil => cases h
  | cons u us ih =>
    rw [unitsString_cons, List.length_append]
    cases h1 : packUnit depth u b with
    | error g =>
      rw [packUnits_cons_error us h1] at h
      cases h
      rcases packUnit_error_cause hready h1 with ⟨hf, hnone⟩ | ⟨hf, hlong⟩
      · exact .inl ⟨hf, u, List.mem_cons_self, hnone⟩
      · exact .inr ⟨hf, by omega⟩
    | ok b1 =>
      rw [packUnits_cons_ok us h1] at h
      obtain ⟨_, _, ha⟩ := packUnit_ok depth u b b1 hready.still hready.entries h1
      rcases ih (ha.ready hready) h with ⟨hf, v, hv, hnone⟩ | ⟨hf, hlong⟩
      · exact .inl ⟨hf, v, List.mem_cons_of_mem _ hv, ha.kept.cb ▸ hnone⟩
      · rw [ha.pos, ha.kept.cb] at hlong
        exact .inr ⟨hf, by omega⟩

end

end Sys2Proof.Machine
end

section
/-! `PUTU` and `PUTB`: what they append, where they fault and where they are refused (41_packing.md R73, R74). -/

namespace Sys2Proof.Machine

/-- The unit of `PUTU` at the two legal widths. -/
theorem unitOf_of_width {w : BitVec 4} (hw : w = 4 ∨ w = 8) (a : Byte) :
    unitOf w a = if w = 4 then a &&& 0x0F else a := by
  rcases hw with rfl | rfl
  · exact unitOf_four a
  · exact unitOf_eight a

theorem byteUnits_eq (w : BitVec 4) (a : Byte) : byteUnits w a = if w = 8 then [a] else [a &&& 0x0F, a >>> 4] := by
  rw [byteUnits, lowNibble_eq, highNibble_eq]

theorem byteUnits_four (a : Byte) : byteUnits 4 a = [a &&& 0x0F, a >>> 4] := byteUnits_eq 4 a

/-- A block whose packing alone went on is the one before with another `ACC`, `FILL` and end of `OUT`. -/
theorem Kept.with_phase {b b' : Block} {ws : List Word} (h : Kept b b') (hout : b'.out = b.out ++ ws) (p : Phase) :
    ({ b' with phase := p } : Block) = { b with acc := b'.acc, fill := b'.fill, out := b.out ++ ws, phase := p } := by
  rw [← hout]
  exact congrArg (fun c : Block => { c with phase := p }) (graft_kept b b' h).symm

/-- The new words and the new open bits are the old open bits and what was appended. -/
theorem Appended.open_bits {depth : Nat} {bits : List Bool} {b b' : Block} {ws : List Word}
    (h : Appended depth bits b b') (hout : b'.out = b.out ++ ws) :
    wordsString ws ++ b'.openString = b.openString ++ bits := by
  have hstream := h.stream
  rw [Block.stream, Block.stream, hout, wordsString_append, List.append_assoc, List.append_assoc] at hstream
  exact List.append_cancel_left hstream

section
variable {i : Instr} {s : State} (hi : isPack i = true) (hphase : s.blk.phase = .load ∨ s.blk.phase = .pack)
include hi hphase

theorem pack_legal : s.blk.phase ∈ legalPhases i := by
  rw [legalPhases_pack hi]
  exact mem_load_pack.2 hphase

/-- A packing command whose units are packed is performed. -/
theorem exec_pack_performed {b : Block} (h : packUnits s.params.outDepth (unitsOf s.blk.w i) s.blk = .ok b) :
    exec i s = .next { s with blk := { b with phase := .pack }, resp := some (.yes 0) } := by
  have hres : resultOf s i = .performed { b with phase := .pack } 0 := by rw [resultOf_pack i s hi, h]; rfl
  exact exec_performed (pack_legal hi hphase) hres

/-- A packing command one of whose units raises takes fault entry from the block before it. -/
theorem exec_pack_raises {f : ErrorCode} (h : packUnits s.params.outDepth (unitsOf s.blk.w i) s.blk = .error f) :
    exec i s = .next { s with blk := s.blk.raise f, resp := some .no } := by
  have hres : resultOf s i = .raised f := by rw [resultOf_pack i s hi, h]; rfl
  exact exec_raised (pack_legal hi hphase) hres

/-- A packing command whose units have entries and whose words fit is performed and appends the units' codes. -/
theorem exec_pack_appends (hinv : s.Inv) (hfound : ∀ u ∈ unitsOf s.blk.w i, Codebase.lookup s.blk.cb u ≠ none)
    (hroom : (s.blk.pos + (unitsString s.blk.cb (unitsOf s.blk.w i)).length) / 32 ≤ s.params.outDepth) :
    ∃ acc fill ws,
      exec i s = .next { s with
        blk := { s.blk with acc := acc, fill := fill, out := s.blk.out ++ ws, phase := .pack },
        resp := some (.yes 0) } ∧
      wordsString ws ++ (List.range fill.toNat).map acc.getMsbD =
        s.blk.openString ++ unitsString s.blk.cb (unitsOf s.blk.w i) ∧
      fill.toNat ≤ 31 ∧ lowClear fill.toNat acc := by
  obtain ⟨b', hok, happ⟩ := packUnits_room hinv.block.ready _ hfound hroom
  obtain ⟨ws, hout⟩ := happ.kept.out
  refine ⟨b'.acc, b'.fill, ws, ?_, happ.open_bits hout, happ.still.fillLe, happ.still.accClear⟩
  rw [exec_pack_performed hi hphase hok, happ.kept.with_phase hout]

end

theorem exec_pack_refused {i : Instr} {s : State} (hi : isPack i = true)
    (hphase : s.blk.phase = .done ∨ s.blk.phase = .fault) : exec i s = .next { s with resp := some .no } := by
  refine exec_illegal i s ?_
  rw [legalPhases_pack hi]
  exact (not_mem_load_pack _).2 hphase

/-- Settles O14: `PUTU` packs one unit, which the width selects. -/
theorem putuAppendsItsUnitsCode : Obligations.PutuAppendsItsUnitsCode := by
  intro a s e hinv hphase hl hroom
  rw [← unitOf_of_width hinv.block.width] at hl
  have hstring : unitsString s.blk.cb (unitsOf s.blk.w (.putu a)) = e.string := by
    rw [unitsOf, unitsString_singleton, unitString_found _ _ _ hl]
  have happ := exec_pack_appends (i := .putu a) rfl hphase hinv (by simp [unitsOf, hl])
    (by rw [hstring, e.string_length]; exact hroom)
  rwa [hstring] at happ

/-- Settles O15: the one unit has no entry, or its words do not fit; DONE and FAULT take no packing command. -/
theorem putuFaultsAndRefusals : Obligations.PutuFaultsAndRefusals := by
  intro a s hinv
  rw [← unitOf_of_width hinv.block.width]
  refine ⟨fun hphase hnone => ?_, fun hphase e hl hfull => ?_, exec_pack_refused rfl⟩
  · exact exec_pack_raises (i := .putu a) rfl hphase (packUnits_cons_error [] (packUnit_missing _ _ _ hnone))
  · exact exec_pack_raises (i := .putu a) rfl hphase
      (packUnits_cons_error [] (packUnit_overflow hinv.block.ready hl hfull))

/-- Settles O17: `PUTB` packs the units of its byte, in order. -/
theorem putbAppendsItsUnitsCodes : Obligations.PutbAppendsItsUnitsCodes := by
  intro a s units hinv hphase hunits hfound hroom
  rw [← byteUnits_eq] at hunits
  subst hunits
  exact exec_pack_appends (i := .putb a) rfl hphase hinv hfound hroom

/-- Settles O18: the low nibble is packed first, and in each nibble a missing entry leaves nothing to push. -/
theorem putbFaultsLowNibbleFirst : Obligations.PutbFaultsLowNibbleFirst := by
  intro a s hinv hw hphase
  have hready := hinv.block.ready
  have hfault : ∀ f, packUnits s.params.outDepth [a &&& 0x0F, a >>> 4] s.blk = .error f →
      exec (.putb a) s = .next { s with blk := s.blk.raise f, resp := some .no } := fun f h =>
    exec_pack_raises rfl hphase (by rw [unitsOf, hw, byteUnits_four]; exact h)
  refine ⟨fun hnone => ?_, fun e hl hfull => ?_, fun e hl hroom hnone => ?_, fun e f hl hroom hh hfull => ?_⟩
  · exact hfault _ (packUnits_cons_error _ (packUnit_missing _ _ _ hnone))
  · exact hfault _ (packUnits_cons_error _ (packUnit_overflow hready hl hfull))
  · obtain ⟨b', _, hcb, _, hfirst⟩ := packUnits_cons_room hready [a >>> 4] hl hroom
    exact hfault _ (hfirst.trans (packUnits_cons_error [] (packUnit_missing _ _ _ (hcb ▸ hnone))))
  · obtain ⟨b', hready', hcb, hpos, hfirst⟩ := packUnits_cons_room hready [a >>> 4] hl hroom
    exact hfault _ (hfirst.trans (packUnits_cons_error []
      (packUnit_overflow hready' (hcb ▸ hh) (hpos ▸ hfull))))

/-! `PUTB` as `PUTU` of its units. -/

/-- Fault entry keeps `CB`, `W` and `DUP` and sets the rest, so packing before it leaves no trace. -/
theorem raise_eq_of_kept {b b' : Block} (h : Kept b b') (f : ErrorCode) (p : Phase) :
    ({ b' with phase := p } : Block).raise f = b.raise f := by
  simp only [Block.raise, h.cb, h.w, h.dup]

/-- A packing command's result does not read the phase before it: packing neither reads nor writes it, and the command
sets it. -/
theorem packed_packUnits_with_phase (depth : Nat) (us : List Byte) (b : Block) (p : Phase) :
    packed (packUnits depth us { b with phase := p }) = packed (packUnits depth us b) := by
  have hgraft := packUnits_graft depth us { b with phase := p } b fun _ _ => rfl
  have hself : graft { b with phase := p } b = { b with phase := p } := rfl
  rw [← hself, hgraft]
  cases hx : packUnits depth us b with
  | error f => rfl
  | ok c =>
    have hc := congrArg (fun d : Block => { d with phase := .pack }) (graft_kept b c (packUnits_kept _ _ _ _ hx))
    exact congrArg (fun d => Result.performed d 0) hc

/-- Where the first units of `i` are packed, `i` ends as `j`, which packs the others, ends in the state after them. -/
theorem exec_of_packed_first {i j : Instr} {s : State} {b : Block} {us : List Byte} (hi : isPack i = true)
    (hj : isPack j = true) (hphase : s.blk.phase = .load ∨ s.blk.phase = .pack)
    (hfirst : packUnits s.params.outDepth us s.blk = .ok b)
    (hunits : packUnits s.params.outDepth (unitsOf s.blk.w i) s.blk =
      packUnits s.params.outDepth (unitsOf s.blk.w j) b) :
    exec i s = exec j { s with blk := { b with phase := .pack }, resp := some (.yes 0) } := by
  have hkept := packUnits_kept _ _ _ _ hfirst
  have hres : resultOf { s with blk := { b with phase := .pack }, resp := some (.yes 0) } j = resultOf s i := by
    rw [resultOf_pack _ _ hj, resultOf_pack _ _ hi, hunits]
    exact (packed_packUnits_with_phase _ _ b .pack).trans (by rw [hkept.w])
  rw [exec_legal i s (pack_legal hi hphase), exec_legal j _ (pack_legal hj (.inr rfl)), hres]
  cases hend : resultOf s i with
  | performed c d => rfl
  | refused => exact absurd ((resultOf_pack i s hi).symm.trans hend) (packed_ne_refused _)
  | raised f => simp only [finish_raised, raise_eq_of_kept hkept]

/-! The nibbles of a byte as units at `W` = 4. -/

theorem unitOf_four_lowNibble (a : Byte) : unitOf 4 (a &&& 0x0F) = a &&& 0x0F := by
  rw [unitOf_four, BitVec.and_assoc, BitVec.and_self]

theorem unitOf_four_highNibble (a : Byte) : unitOf 4 (a >>> 4) = a >>> 4 := by
  rw [unitOf_four]
  revert a
  decide

theorem lowNibble_lt (a : Byte) : (a &&& 0x0F).toNat < 16 := by revert a; decide

theorem highNibble_lt (a : Byte) : (a >>> 4).toNat < 16 := by revert a; decide

/-- At `W` = 8 the one unit of a byte is that of `PUTU`. -/
theorem exec_putb_eight (a : Byte) (s : State) (hw : s.blk.w = 8) : exec (.putb a) s = exec (.putu a) s := by
  have hunits : unitsOf s.blk.w (.putb a) = unitsOf s.blk.w (.putu a) := by
    rw [unitsOf, unitsOf, hw, byteUnits_eq, if_pos rfl, unitOf_eight]
  rw [exec_eq, exec_eq, resultOf_pack _ _ rfl, resultOf_pack _ _ rfl, hunits]
  rfl

/-- Settles O16: at `W` = 8 the units are the same; at `W` = 4 the low nibble's `PUTU` is refused, faults or is
performed, and only then the high nibble is packed. -/
theorem putbIsPutuOfItsUnits : Obligations.PutbIsPutuOfItsUnits := by
  intro a s
  refine ⟨exec_putb_eight a s, fun hw => ?_⟩
  have hlow : unitsOf s.blk.w (.putu (a &&& 0x0F)) = [a &&& 0x0F] := by rw [unitsOf, hw, unitOf_four_lowNibble]
  have hboth : unitsOf s.blk.w (.putb a) = [a &&& 0x0F, a >>> 4] := by rw [unitsOf, hw, byteUnits_four]
  have hunit := packUnit_eq_packUnits s.params.outDepth (a &&& 0x0F) s.blk
  by_cases hlegal : s.blk.phase ∈ [Phase.load, .pack]
  · have hphase := mem_load_pack.1 hlegal
    cases hfirst : packUnits s.params.outDepth [a &&& 0x0F] s.blk with
    | error f =>
      refine ⟨_, exec_pack_raises rfl hphase (hlow ▸ hfirst), ?_⟩
      rw [if_neg nofun]
      exact exec_pack_raises rfl hphase (hboth ▸ packUnits_cons_error [a >>> 4] (hunit.trans hfirst))
    | ok b =>
      have hhigh : unitsOf s.blk.w (.putu (a >>> 4)) = [a >>> 4] := by rw [unitsOf, hw, unitOf_four_highNibble]
      refine ⟨_, exec_pack_performed rfl hphase (hlow ▸ hfirst), ?_⟩
      rw [if_pos rfl]
      refine exec_of_packed_first rfl rfl hphase hfirst ?_
      rw [hboth, hhigh, packUnits_cons_ok [a >>> 4] (hunit.trans hfirst)]
  · have hclosed := (not_mem_load_pack _).1 hlegal
    have hpack : s.blk.phase ≠ .pack := fun h => hlegal (mem_load_pack.2 (.inr h))
    refine ⟨_, exec_pack_refused rfl hclosed, ?_⟩
    rw [if_neg hpack]
    exact exec_pack_refused rfl hclosed

/-! The entries above 15 at `W` = 4. -/

/-- A packing command does the same with another codebase that has the same entries for its units. -/
theorem exec_pack_other_codebase (i : Instr) (s : State) (cb : Codebase) (hi : isPack i = true)
    (hcb : ∀ u ∈ unitsOf s.blk.w i, Codebase.lookup cb u = Codebase.lookup s.blk.cb u) :
    ∃ t, exec i s = .next t ∧
      exec i { s with blk := { s.blk with cb := cb } } = .next { t with blk := { t.blk with cb := cb } } := by
  by_cases hlegal : s.blk.phase ∈ [Phase.load, .pack]
  · have hphase := mem_load_pack.1 hlegal
    have hother : packUnits s.params.outDepth (unitsOf s.blk.w i) { s.blk with cb := cb } =
        graftResult { s.blk with cb := cb } (packUnits s.params.outDepth (unitsOf s.blk.w i) s.blk) :=
      packUnits_graft _ _ { s.blk with cb := cb } s.blk hcb
    cases hx : packUnits s.params.outDepth (unitsOf s.blk.w i) s.blk with
    | error f =>
      rw [hx] at hother
      exact ⟨_, exec_pack_raises hi hphase hx,
        exec_pack_raises (s := { s with blk := { s.blk with cb := cb } }) hi hphase hother⟩
    | ok b =>
      rw [hx] at hother
      have hgraft : graft { s.blk with cb := cb } b = { b with cb := cb } :=
        congrArg (fun c : Block => { c with cb := cb }) (graft_kept _ _ (packUnits_kept _ _ _ _ hx))
      refine ⟨_, exec_pack_performed hi hphase hx, ?_⟩
      rw [exec_pack_performed (s := { s with blk := { s.blk with cb := cb } }) hi hphase hother, hgraft]
  · have hclosed := (not_mem_load_pack _).1 hlegal
    exact ⟨_, exec_pack_refused hi hclosed,
      exec_pack_refused (s := { s with blk := { s.blk with cb := cb } }) hi hclosed⟩

/-- Settles O20: at `W` = 4 the unit is masked to four bits, and every unit of both commands is below 16. -/
theorem highEntriesAreUnreadAtWidth4 : Obligations.HighEntriesAreUnreadAtWidth4 := by
  intro a s cb hw hcb
  constructor
  · have hunits : unitsOf s.blk.w (.putu a) = unitsOf s.blk.w (.putu (a &&& 0x0F)) := by
      rw [unitsOf, unitsOf, hw, unitOf_four_lowNibble, unitOf_four]
    rw [exec_eq, exec_eq, resultOf_pack _ _ rfl, resultOf_pack _ _ rfl, hunits]
    rfl
  · rintro i (rfl | rfl)
    · refine exec_pack_other_codebase _ s cb rfl fun u hu => hcb u ?_
      rw [unitsOf, hw, unitOf_four, List.mem_singleton] at hu
      exact hu ▸ lowNibble_lt a
    · refine exec_pack_other_codebase _ s cb rfl fun u hu => hcb u ?_
      rw [unitsOf, hw, byteUnits_four] at hu
      simp only [List.mem_cons, List.not_mem_nil, or_false] at hu
      rcases hu with rfl | rfl
      · exact lowNibble_lt a
      · exact highNibble_lt a

end Sys2Proof.Machine
end

section
/-! The stream position: what a performed `PUTU` adds to it (41_packing.md R77). -/

namespace Sys2Proof.Machine

/-- Where the words end among `n` ≥ 1 appended bits, at most 64 (41_packing.md R77): arithmetic on the two positions,
since both words are open. -/
theorem Appended.split_properties {depth n : Nat} {bits : List Bool} {b b' : Block} (h : Appended depth bits b b')
    (hopen : Open depth b) (hlen : bits.length = n) (h1 : 1 ≤ n) (h64 : n ≤ 64) :
    b'.pos = b.pos + n ∧ b'.wcount ≤ b.wcount + 2 ∧ (n ≤ 32 → b'.wcount ≤ b.wcount + 1) ∧
      (b.pos / 32 = (b'.pos - 1) / 32 ↔ n ≤ 32 - b.fill.toNat) ∧ (n = 1 → b.pos / 32 = (b'.pos - 1) / 32) := by
  have hpos := h.pos
  have hfill := hopen.fillLe
  have hfill' := h.still.fillLe
  simp only [Block.pos, Config.wordBits] at hpos ⊢
  omega

/-- Settles O21: the one unit has an entry, whose bits are appended to an open word. -/
theorem putuAdvancesByItsCodeLength : Obligations.PutuAdvancesByItsCodeLength := by
  intro a s t hinv hexec hok
  obtain ⟨b, d, hres, rfl⟩ := exec_answeredOk _ s t hexec hok
  rw [resultOf_pack _ s rfl] at hres
  obtain ⟨b', hpack, rfl, _⟩ := packed_performed _ _ _ hres
  obtain ⟨hfound, happ⟩ := packUnits_ok _ _ _ _ hinv.block.open hinv.block.entries hpack
  obtain ⟨e, hl⟩ := hfound (unitOf s.blk.w a) (List.mem_singleton_self _)
  have hlen : (unitsString s.blk.cb (unitsOf s.blk.w (.putu a))).length = e.len.toNat := by
    rw [unitsOf, unitsString_singleton, unitString_found _ _ _ hl, e.string_length]
  have he := hinv.block.entries _ e hl
  exact ⟨e, unitOf_of_width hinv.block.width a ▸ hl, happ.split_properties hinv.block.open hlen he.lenPos he.len_le⟩

end Sys2Proof.Machine
end

section
/-! `END`, in every phase (41_packing.md R75). -/

namespace Sys2Proof.Machine

theorem flush_nothing {b : Block} (depth : Nat) (h : b.fill = 0) : flush depth b = .ok b := by simp [flush, h]

/-- An open word is pushed where there is room. -/
theorem flush_push {depth : Nat} {b : Block} (hfill : 0 < b.fill.toNat) (hroom : b.wcount ≠ depth) :
    flush depth b = .ok { b with acc := 0, fill := 0, out := b.out ++ [b.acc] } := by
  rw [flush, if_pos hfill, pushAndClear_room _ _ _ hroom]

theorem fill_pos {x : BitVec 6} (h : x ≠ 0) : 0 < x.toNat :=
  Nat.pos_of_ne_zero fun h0 => h (BitVec.eq_of_toNat_eq h0)

section
variable {s : State} (hphase : s.blk.phase = .load ∨ s.blk.phase = .pack)
include hphase

/-- An `END` whose flush completes is performed. -/
theorem exec_end_closes {b : Block} (h : flush s.params.outDepth s.blk = .ok b) :
    exec .endStream s = .next { s with blk := { b with phase := .done }, resp := some (.yes b.countWord) } := by
  have hres : resultOf s .endStream = .performed { b with phase := .done } b.countWord := by rw [resultOf, h]; rfl
  exact exec_performed (mem_load_pack.2 hphase) hres

/-- An `END` that must push into a full buffer takes fault entry. -/
theorem exec_end_overflow (hfill : 0 < s.blk.fill.toNat) (hfull : s.blk.wcount = s.params.outDepth) :
    exec .endStream s = .next { s with blk := s.blk.raise .outputOverflow, resp := some .no } := by
  have hres : resultOf s .endStream = .raised .outputOverflow := by
    rw [resultOf, flush_overflow _ _ hfill hfull]
    rfl
  exact exec_raised (mem_load_pack.2 hphase) hres

/-- The answer of an `END` is the word count, which the invariant after it makes fit. -/
theorem exec_end_answer (hinv : s.Inv) {b : Block} (h : flush s.params.outDepth s.blk = .ok b) :
    b.countWord.toNat = b.wcount :=
  (exec_keeps_inv _ _ _ hinv (exec_end_closes hphase h)).countWord_toNat

end

theorem exec_end_refused {s : State} (hphase : s.blk.phase = .done ∨ s.blk.phase = .fault) :
    exec .endStream s = .next { s with resp := some .no } :=
  exec_illegal _ s ((not_mem_load_pack _).2 hphase)

/-- Settles O19: the flush has nothing to push, pushes, or overflows. -/
theorem endFlushesAndAnswersTheCount : Obligations.EndFlushesAndAnswersTheCount := by
  intro s hinv
  refine ⟨fun hphase hzero => ?_, fun hphase hfill hroom => ?_, fun hphase hfill hfull => ?_, exec_end_refused⟩
  · have hflush := flush_nothing s.params.outDepth hzero
    exact ⟨_, exec_end_closes hphase hflush, exec_end_answer hphase hinv hflush⟩
  · have hflush := flush_push (fill_pos hfill) (Nat.ne_of_lt hroom)
    refine ⟨_, exec_end_closes hphase hflush, ?_⟩
    rw [exec_end_answer hphase hinv hflush]
    exact List.length_append
  · exact exec_end_overflow hphase (fill_pos hfill) hfull

end Sys2Proof.Machine
end

section
/-! The phase table, the stream position and the causes of the errors (10_state.md R20, 60_exceptions.md R91). -/

namespace Sys2Proof.Machine

/-- A setup command keeps the phase, or faults in LOAD. -/
theorem exec_setup_phase {i : Instr} {s t : State} (hi : isSetup i = true) (hexec : exec i s = .next t) :
    t.blk.phase = s.blk.phase ∨ (s.blk.phase = .load ∧ t.blk.phase = .fault) := by
  have hlegal : legalPhases i = [.load] := by
    cases i with
    | cfg a => rfl
    | ldcode a l d => rfl
    | _ => cases hi
  rcases exec_cases i s t hexec with ⟨rfl, _⟩ | ⟨hload, f, _, rfl⟩ | ⟨_, b, d, hres, rfl⟩
  · exact .inl rfl
  · rw [hlegal] at hload
    exact .inr ⟨List.mem_singleton.1 hload, rfl⟩
  · rcases resultOf_performed_phase i s b d hres with ⟨rfl, _⟩ | ⟨hpack, _⟩ | ⟨rfl, _⟩ | hp
    · cases hi
    · exact absurd hpack (by simp [not_isPack_of_isSetup i hi])
    · cases hi
    · exact .inl hp

/-- A packing command in LOAD or PACK gives PACK or FAULT; elsewhere it keeps the phase. -/
theorem exec_pack_phase {i : Instr} {s t : State} (hi : isPack i = true) (hexec : exec i s = .next t) :
    if s.blk.phase = .load ∨ s.blk.phase = .pack then t.blk.phase = .pack ∨ t.blk.phase = .fault
    else t.blk.phase = s.blk.phase := by
  split
  next hphase =>
    cases hx : packUnits s.params.outDepth (unitsOf s.blk.w i) s.blk with
    | ok b =>
      cases (exec_pack_performed hi hphase hx).symm.trans hexec
      exact .inl rfl
    | error f =>
      cases (exec_pack_raises hi hphase hx).symm.trans hexec
      exact .inr rfl
  next hphase =>
    have hclosed := (not_mem_load_pack s.blk.phase).1 (mt mem_load_pack.1 hphase)
    cases (exec_pack_refused hi hclosed).symm.trans hexec
    rfl

/-- `END` gives DONE from LOAD, where no bit is open; DONE or FAULT from PACK; elsewhere it keeps the phase. -/
theorem exec_end_phase {s t : State} (hinv : s.Inv) (hexec : exec .endStream s = .next t) :
    if s.blk.phase = .load then t.blk.phase = .done
    else if s.blk.phase = .pack then t.blk.phase = .done ∨ t.blk.phase = .fault
    else t.blk.phase = s.blk.phase := by
  split
  next hload =>
    have hempty := (hinv.block.closedEmpty (hload ▸ nofun)).1
    cases (exec_end_closes (.inl hload) (flush_nothing _ hempty)).symm.trans hexec
    rfl
  next hload =>
    split
    next hpack =>
      cases hflush : flush s.params.outDepth s.blk with
      | ok b =>
        cases (exec_end_closes (.inr hpack) hflush).symm.trans hexec
        exact .inl rfl
      | error f =>
        obtain ⟨_, hfill, hfull⟩ := flush_error _ _ _ hflush
        cases (exec_end_overflow (.inr hpack) hfill hfull).symm.trans hexec
        exact .inr rfl
    next hpack =>
      have hclosed := (not_mem_load_pack s.blk.phase).1 (mt mem_load_pack.1 (not_or.2 ⟨hload, hpack⟩))
      cases (exec_end_refused hclosed).symm.trans hexec
      rfl

theorem exec_read_phase {i : Instr} {s t : State} (hi : i = .rdst ∨ i = .rderr ∨ i = .rdcnt ∨ ∃ n, i = .rdw n)
    (hexec : exec i s = .next t) : t.blk.phase = s.blk.phase := by
  obtain ⟨r, hr⟩ := exec_read i s hi
  cases hr.symm.trans hexec
  rfl

/-- The flush does not move the stream position back. -/
theorem Flushed.pos_le {depth : Nat} {b b' : Block} (h : Flushed depth b b') : b.pos ≤ b'.pos := by
  rw [← stream_length, ← stream_length, h.stream, List.length_append]
  exact Nat.le_add_right _ _

/-- A performed command other than `CLR` does not move the stream position back. -/
theorem performed_pos {i : Instr} {s : State} {b : Block} {d : Data} (hinv : s.Inv)
    (hres : resultOf s i = .performed b d) : s.blk.pos ≤ b.pos ∨ (b.pos = 0 ∧ i = .clr) := by
  rcases resultOf_performed i s b d hres with
    ⟨hi, rfl⟩ | ⟨_, _, _, rfl⟩ | ⟨_, _, _, _, _, _, _, rfl⟩ | ⟨_, _, _, _, _, _, _, rfl⟩ | ⟨_, b', hunits, rfl⟩ |
      ⟨_, b', hflush, rfl⟩ | ⟨_, rfl⟩
  · exact .inr ⟨rfl, hi⟩
  · exact .inl (Nat.le_refl _)
  · exact .inl (Nat.le_refl _)
  · exact .inl (Nat.le_refl _)
  · obtain ⟨_, happ⟩ := packUnits_ok _ _ _ _ hinv.block.open hinv.block.entries hunits
    exact .inl (Nat.le.intro happ.pos.symm)
  · exact .inl (flush_ok _ _ _ hinv.block.open hinv.block.open.acc_eq_zero hflush).pos_le
  · exact .inl (Nat.le_refl _)

/-- A command moves the stream position back only to 0, and only by `CLR` or fault entry. -/
theorem exec_pos {i : Instr} {s t : State} (hinv : s.Inv) (hexec : exec i s = .next t) :
    s.blk.pos ≤ t.blk.pos ∨ (t.blk.pos = 0 ∧ (i = .clr ∨ t.blk.phase = .fault)) := by
  rcases exec_cases i s t hexec with ⟨rfl, _⟩ | ⟨_, f, _, rfl⟩ | ⟨_, b, d, hres, rfl⟩
  · exact .inl (Nat.le_refl _)
  · exact .inr ⟨rfl, .inr rfl⟩
  · exact (performed_pos hinv hres).imp_right fun ⟨hzero, hi⟩ => ⟨hzero, .inl hi⟩

/-- At most `OUT_DEPTH` words are finished and 31 bits open. -/
theorem Open.pos_le {depth : Nat} {b : Block} (h : Open depth b) : b.pos ≤ 32 * depth + 31 := by
  have hfill := h.fillLe
  have hcount := h.countLe
  simp only [Block.pos, Config.wordBits]
  omega

/-- Settles O27: the table's row of each command by its kind, and the position bounded by the invariant after it. -/
theorem phaseFollowsTheTable : Obligations.PhaseFollowsTheTable := by
  intro i s t hinv hexec
  refine ⟨?_, exec_pos hinv hexec, (exec_keeps_inv i s t hinv hexec).block.open.pos_le⟩
  cases i with
  | clr =>
    cases (exec_clr s).symm.trans hexec
    rfl
  | cfg a | ldcode a l d => exact exec_setup_phase rfl hexec
  | putu a | putb a => exact exec_pack_phase rfl hexec
  | endStream => exact exec_end_phase hinv hexec
  | rdst | rderr | rdcnt | rdw n => exact exec_read_phase (by simp) hexec

/-- Settles O30: a command that enters FAULT raised a fault, and each fault has its command and its cause. -/
theorem eachErrorCodeHasItsCause : Obligations.EachErrorCodeHasItsCause := by
  intro i s t hinv hexec hs ht
  obtain ⟨f, hres, rfl⟩ := exec_enters_fault i s t hexec hs ht
  rcases resultOf_raised i s f hres with ⟨rfl, hi⟩ | ⟨rfl, hi⟩ | ⟨rfl, hi⟩ | ⟨hi, hunits⟩ | ⟨hi, rfl, hfill, hfull⟩
  · exact .inl ⟨rfl, hi⟩
  · exact .inr (.inl ⟨rfl, hi⟩)
  · exact .inr (.inr (.inl ⟨rfl, hi⟩))
  · rcases packUnits_error_cause hinv.block.ready _ hunits with ⟨rfl, hnone⟩ | ⟨rfl, hlong⟩
    · exact .inr (.inr (.inr (.inl ⟨rfl, hi, hnone⟩)))
    · exact .inr (.inr (.inr (.inr (.inl ⟨rfl, hi, hlong⟩))))
  · have hne : s.blk.fill ≠ 0 := fun h0 => absurd hfill (by simp [h0])
    exact .inr (.inr (.inr (.inr (.inr ⟨rfl, hi, hne, hfull⟩))))

end Sys2Proof.Machine
end

section
/-! Whole runs: the stream equation, the round trip, and runs that complete (41_packing.md R76, R79,
70_reset_and_hazards.md R102). -/

namespace Sys2Proof.Machine

/-- Every run of performed commands keeps the invariants. -/
theorem performAll_keeps_inv (is : List Instr) (s t : State) (h : s.Inv) (hrun : performAll is s = some t) : t.Inv := by
  induction is generalizing s with
  | nil =>
    cases hrun
    exact ⟨h.params, h.block⟩
  | cons i is ih =>
    obtain ⟨hlegal, b, d, hres, hrest⟩ := (performAll_cons i is s t).1 hrun
    have hb := performed_keeps_inv h hlegal hres
    exact ih { s with blk := b, resp := some (.yes d) } ⟨h.params, hb⟩ hrest

/-- With at most 31 open bits the words and the open bits are the stream position's quotient and remainder. -/
theorem Open.count_and_fill {depth : Nat} {b : Block} (h : Open depth b) :
    b.wcount = b.pos / 32 ∧ b.fill.toNat = b.pos % 32 := by
  have hfill := h.fillLe
  simp only [Block.pos, Config.wordBits]
  omega

/-- The word count and the answer of a finished run from a reset block. -/
theorem finishedRun_count (s : State) (setup packs : List Instr) (t : State) (hparams : s.params.wf)
    (hreset : s.blk = State.reset.blk) (hsetup : ∀ i ∈ setup, isSetup i = true) (hpacks : ∀ i ∈ packs, isPack i = true)
    (hrun : performAll (setup ++ packs ++ [.endStream]) s = some t) :
    t.blk.wcount = ((unitsString t.blk.cb (packs.flatMap (unitsOf t.blk.w))).length + 31) / 32 ∧
      ∃ d, t.resp = some (.yes d) ∧ d.toNat = t.blk.wcount := by
  have hinv := performAll_keeps_inv _ s t ⟨hparams, hreset ▸ reset_inv _⟩ hrun
  obtain ⟨m, hbody, hend⟩ := (performAll_append _ _ s t).1 hrun
  obtain ⟨hready, hstream⟩ := performAll_setup_packs s setup packs m hreset hsetup hpacks hbody
  obtain ⟨b, hb, rfl⟩ := performAll_end m t hend hready.still
  have hcount := hb.count
  rw [← stream_length, hstream, ← hb.kept.cb, ← hb.kept.w] at hcount
  exact ⟨hcount, b.countWord, rfl, hinv.countWord_toNat⟩

/-- Settles O39: the stream of the packed units, its position divided by the word width, and the output of `END`. -/
theorem runPacksItsUnitsInOrder : Obligations.RunPacksItsUnitsInOrder := by
  intro s setup packs t hparams hreset hsetup hpacks
  refine ⟨fun hrun => ?_, fun hrun => ?_⟩
  · obtain ⟨hready, hstream⟩ := performAll_setup_packs s setup packs t hreset hsetup hpacks hrun
    have hpos : t.blk.pos = _ := (stream_length t.blk).symm.trans (congrArg List.length hstream)
    obtain ⟨hcount, hfill⟩ := hready.still.count_and_fill
    rw [hpos] at hcount hfill
    exact ⟨hstream, hpos, hcount, hfill⟩
  · exact ⟨finishedRun_out s setup packs t hreset hsetup hpacks hrun,
      finishedRun_count s setup packs t hparams hreset hsetup hpacks hrun⟩

/-! The units a run packed have entries. -/

theorem performAll_packs_found (packs : List Instr) (s t : State) (hpacks : ∀ i ∈ packs, isPack i = true)
    (hrun : performAll packs s = some t) (hready : Ready s.params.outDepth s.blk) :
    ∀ u ∈ packs.flatMap (unitsOf s.blk.w), ∃ e, Codebase.lookup s.blk.cb u = some e := by
  induction packs generalizing s with
  | nil => exact nofun
  | cons i is ih =>
    obtain ⟨_, b, d, hres, hrest⟩ := (performAll_cons i is s t).1 hrun
    obtain ⟨hi, his⟩ := List.forall_mem_cons.1 hpacks
    have hfirst := pack_appends i s b d hi hres hready
    have htail := ih _ his hrest hfirst.ready
    rw [hfirst.cb, hfirst.w] at htail
    rw [resultOf_pack i s hi] at hres
    obtain ⟨b', hunits, _⟩ := packed_performed _ _ _ hres
    have hhead := (packUnits_ok _ _ _ _ hready.still hready.entries hunits).1
    rw [List.flatMap_cons]
    exact List.forall_mem_append.2 ⟨hhead, htail⟩

theorem finishedRun_found (s : State) (setup packs : List Instr) (t : State) (hreset : s.blk = State.reset.blk)
    (hsetup : ∀ i ∈ setup, isSetup i = true) (hpacks : ∀ i ∈ packs, isPack i = true)
    (hrun : performAll (setup ++ packs ++ [.endStream]) s = some t) :
    ∀ u ∈ packs.flatMap (unitsOf t.blk.w), ∃ e, Codebase.lookup t.blk.cb u = some e := by
  obtain ⟨m, hbody, hend⟩ := (performAll_append _ _ s t).1 hrun
  obtain ⟨hready, _⟩ := performAll_setup_packs s setup packs m hreset hsetup hpacks hbody
  obtain ⟨b, hb, rfl⟩ := performAll_end m t hend hready.still
  obtain ⟨n, hset, hpack⟩ := (performAll_append _ _ s m).1 hbody
  obtain ⟨hparams, hn, _⟩ := performAll_setup setup s n hsetup hset (hreset ▸ ready_reset _)
  have hn : Ready n.params.outDepth n.blk := hparams ▸ hn
  have hfound := performAll_packs_found packs n m hpacks hpack hn
  have hpacked := performAll_packs packs n m hpacks hpack hn
  rwa [← hpacked.cb, ← hpacked.w, ← hb.kept.cb, ← hb.kept.w] at hfound

/-! The reference decoder where no entry's bit string begins another's. -/

theorem mem_allUnits (u : Byte) : u ∈ allUnits :=
  List.mem_map.2 ⟨u.toNat, List.mem_range.2 u.isLt, BitVec.ofNat_toNat 8 u ▸ BitVec.setWidth_eq u⟩

theorem unitMatches_iff (cb : Codebase) (bs : List Bool) (u : Byte) :
    unitMatches cb bs u = true ↔ ∃ e, Codebase.lookup cb u = some e ∧ e.string <+: bs := by
  unfold unitMatches
  cases Codebase.lookup cb u <;> simp

/-- Where no entry's string begins another's, at most one unit matches: of two strings that begin the same bits one
begins the other. -/
theorem prefixFree.unique {cb : Codebase} (h : prefixFree cb) {bs : List Bool} {u v : Byte}
    (hu : unitMatches cb bs u = true) (hv : unitMatches cb bs v = true) : u = v := by
  obtain ⟨e, hle, hpe⟩ := (unitMatches_iff cb bs u).1 hu
  obtain ⟨f, hlf, hpf⟩ := (unitMatches_iff cb bs v).1 hv
  by_cases hne : u = v
  · exact hne
  rcases List.prefix_or_prefix_of_prefix hpe hpf with hpre | hpre
  · exact nomatch (h u v e f hne hle hlf).symm.trans (List.isPrefixOf_iff_prefix.2 hpre)
  · exact nomatch (h v u f e (Ne.symm hne) hlf hle).symm.trans (List.isPrefixOf_iff_prefix.2 hpre)

/-- The decoder's search finds the unit that matches. -/
theorem prefixFree.find_unit {cb : Codebase} (h : prefixFree cb) {bs : List Bool} {u : Byte}
    (hu : unitMatches cb bs u = true) : allUnits.find? (unitMatches cb bs) = some u := by
  obtain ⟨v, hv⟩ := Option.isSome_iff_exists.1 (List.find?_isSome.2 ⟨u, mem_allUnits u, hu⟩)
  rw [hv, h.unique hu (List.find?_some hv)]

/-- The decoder gives back units that all have entries from their codes, whatever bits follow. -/
theorem prefixFree.decodeStream_unitsString {cb : Codebase} (h : prefixFree cb) (us : List Byte) (rest : List Bool)
    (hfound : ∀ u ∈ us, ∃ e, Codebase.lookup cb u = some e) :
    decodeStream cb us.length (unitsString cb us ++ rest) = some us := by
  induction us with
  | nil => rfl
  | cons u us ih =>
    obtain ⟨⟨e, hl⟩, hus⟩ := List.forall_mem_cons.1 hfound
    have hmatch : unitMatches cb (unitString cb u ++ (unitsString cb us ++ rest)) u = true :=
      (unitMatches_iff _ _ _).2 ⟨e, hl, unitString_found cb u e hl ▸ List.prefix_append _ _⟩
    rw [unitsString_cons, List.append_assoc, List.length_cons]
    simp only [decodeStream, h.find_unit hmatch, List.drop_left, ih hus, Option.map_some]

/-- Settles O41: the output is the units' codes and zeros, and the decoder reads the units off it. -/
theorem prefixFreeRunsDecodeBack : Obligations.PrefixFreeRunsDecodeBack := by
  intro s setup packs t _ hreset hsetup hpacks hrun hfree
  rw [finishedRun_out s setup packs t hreset hsetup hpacks hrun]
  exact hfree.decodeStream_unitsString _ _ (finishedRun_found s setup packs t hreset hsetup hpacks hrun)

/-! Runs that complete. -/

theorem unitsString_append (cb : Codebase) (us vs : List Byte) :
    unitsString cb (us ++ vs) = unitsString cb us ++ unitsString cb vs := List.flatMap_append

/-- Packing moves the stream position by the number of the units' code bits. -/
theorem Packed.pos {us : List Byte} {s t : State} (h : Packed us s t) :
    t.blk.pos = s.blk.pos + (unitsString s.blk.cb us).length := by
  rw [← stream_length, h.stream, List.length_append, stream_length]

/-- Packing commands whose units all have entries and whose words fit are all performed. -/
theorem performAll_packs_covered (packs : List Instr) (s : State) (hready : Ready s.params.outDepth s.blk)
    (hphase : s.blk.phase = .load ∨ s.blk.phase = .pack) (hpacks : ∀ i ∈ packs, isPack i = true)
    (hfound : ∀ u ∈ packs.flatMap (unitsOf s.blk.w), Codebase.lookup s.blk.cb u ≠ none)
    (hroom : (s.blk.pos + (unitsString s.blk.cb (packs.flatMap (unitsOf s.blk.w))).length) / 32 ≤ s.params.outDepth) :
    ∃ t, performAll packs s = some t ∧ (t.blk.phase = .load ∨ t.blk.phase = .pack) := by
  induction packs generalizing s with
  | nil => exact ⟨_, performAll_nil s, hphase⟩
  | cons i is ih =>
    obtain ⟨hi, his⟩ := List.forall_mem_cons.1 hpacks
    rw [List.flatMap_cons] at hfound hroom
    obtain ⟨hhead, htail⟩ := List.forall_mem_append.1 hfound
    rw [unitsString_append, List.length_append] at hroom
    obtain ⟨b, hunits, happ⟩ := packUnits_room hready (unitsOf s.blk.w i) hhead (by omega)
    have hres : resultOf s i = .performed { b with phase := .pack } 0 := by rw [resultOf_pack i s hi, hunits]; rfl
    have hfirst := pack_appends i s _ 0 hi hres hready
    obtain ⟨t, hrest, ht⟩ := ih _ hfirst.ready (.inr rfl) his (by rw [hfirst.cb, hfirst.w]; exact htail)
      (by rw [hfirst.pos, hfirst.cb, hfirst.w, Nat.add_assoc]; exact hroom)
    exact ⟨t, (performAll_cons i is s t).2 ⟨pack_legal hi hphase, _, _, hres, hrest⟩, ht⟩

/-- `END` is performed where the flush has no word to push or room for one. -/
theorem performAll_end_covered (s : State) (hphase : s.blk.phase = .load ∨ s.blk.phase = .pack)
    (hroom : (s.blk.pos + 31) / 32 ≤ s.params.outDepth) :
    ∃ t, performAll [.endStream] s = some t ∧ t.blk.phase = .done := by
  have hflush : s.blk.fill.toNat = 0 ∨ s.blk.wcount ≠ s.params.outDepth := by
    simp only [Block.pos, Config.wordBits] at hroom
    omega
  obtain ⟨b, hb⟩ := flush_room _ _ hflush
  have hres : resultOf s .endStream = .performed { b with phase := .done } b.countWord := by rw [resultOf, hb]; rfl
  exact ⟨_, (performAll_cons _ _ _ _).2 ⟨mem_load_pack.2 hphase, _, _, hres, performAll_nil _⟩, rfl⟩

/-- Settles O42: the packing commands are all performed, and the words they leave room for hold the open one. -/
theorem coveredRunsThatFitComplete : Obligations.CoveredRunsThatFitComplete := by
  intro s packs hinv hphase hpacks hfound hroom
  have hready := hinv.block.ready
  obtain ⟨m, hbody, hm⟩ := performAll_packs_covered packs s hready hphase hpacks hfound (by omega)
  have hpacked := performAll_packs packs s m hpacks hbody hready
  have hend : (m.blk.pos + 31) / 32 ≤ m.params.outDepth := by
    rw [hpacked.params, hpacked.pos]
    exact hroom
  obtain ⟨t, ht, hdone⟩ := performAll_end_covered m hm hend
  exact ⟨t, (performAll_append _ _ s t).2 ⟨m, hbody, ht⟩, hdone⟩

end Sys2Proof.Machine
end
